-- ==== Sys2Proof/Word.lean ====
section
/-! DEFINITION. The value types of the hardware (00_scope R8, R9; 45_arithmetic R151): every value is an unsigned bit
pattern of a fixed width. Arithmetic modulo 2^32 (`+32`, `-32`) is `BitVec` addition and subtraction. -/

namespace Sys2Proof

/-- A byte, 8 bits (R8). -/
abbrev Byte := BitVec 8

/-- A word, 32 bits (R8); also a location address and the data of a port access (R40, R41). -/
abbrev Word := BitVec 32

/-- A 64-bit half, `A || B` or `C || D` of the key schedule (R100, R151). -/
abbrev DWord := BitVec 64

/-- A block of 16 bytes (R6, R9, R11). Byte 0 is the most significant byte, so that the four words of R46 are its four
32-bit slices from the top. -/
abbrev Block := BitVec 128

end Sys2Proof
end

