-- ==== Sys2Proof/Syntax.lean ====
section
/-! DEFINITION. The five commands (30_encoding R62): one constructor per row of the opcode table. A command has no operand
field (R60, R73); its operands are fixed state elements. -/

namespace Sys2Proof

inductive Instr where
  /-- INIT: construction of the instance (42_key_schedule R106). -/
  | init
  /-- ENCBLK: one block encrypted (43_block_core R120). -/
  | encblk
  /-- DECBLK: one block decrypted (43_block_core R121). -/
  | decblk
  /-- CBCENC: `encrypt` (44_cbc_wrapper R138). -/
  | cbcenc
  /-- CBCDEC: `decrypt` (44_cbc_wrapper R139). -/
  | cbcdec
deriving DecidableEq, Repr

end Sys2Proof
end

