-- ==== Sys2Proof/Config.lean ====
section
/-! DEFINITION. What an implementation fixes (00_scope R7) and the free values of the level below the command-atomic one.
The free values are opaque: nothing can evaluate them or prove a value of them. They are functions of the whole machine state,
whatever its type, so that nothing about their dependence on data is assumed (70_reset R192). -/

namespace Sys2Proof

/-- `BUF_BYTES`, the capacity in bytes of each of IBUF and OBUF: 4096 for this hardware (R7; log entry 10). -/
def Config.bufBytes : Nat := 4096

/-- The parameter `TABLES = (S1, S2, KC)` (R7, R89): what a model may take as an argument. -/
structure Tables where
  /-- The S-box S1, `byte -> byte` (R81, R89). -/
  s1 : Byte → Byte
  /-- The S-box S2, `byte -> byte` (R82, R89). -/
  s2 : Byte → Byte
  /-- The round constant KC[i], i = 0..15 (R86, R89). -/
  kc : Nat → Word

/-- The free part of `LAT(cmd, state)` (R7, R190; log entry 4). DESIGN CHOICE: the form; safe. -/
opaque Config.lat {σ : Type} (cmd : Instr) (s : σ) : Nat

/-- The constant that bounds LAT for INIT, ENCBLK, DECBLK (R190; log entry 4). -/
opaque Config.latBase : Nat

/-- The constant per block that bounds LAT for CBCENC, CBCDEC (R190; log entry 4). -/
opaque Config.latPerBlock : Nat

/-- Whether the host makes its next access in this time unit of a busy core (R184, R193; log entry 5). -/
opaque Config.hostActs {σ : Type} (s : σ) : Bool

/-- How many rounds the sequencer makes in this time unit (R33, R98: the hardware's choice; log entry 6). -/
opaque Config.pace {σ : Type} (s : σ) : Nat

end Sys2Proof
end

