-- ==== Sys2Proof/Decode.lean ====
section
/-! DEFINITION. The command word: fields, the decoder as 30_encoding R62, R64, R74 give it, the encoder, and the host's
reading of a table word. -/

namespace Sys2Proof

/-- Field `zero`, bits 31:8 of a command word (R60). -/
def zeroField (w : Word) : BitVec 24 := w.extractLsb' 8 24

/-- Field `op`, bits 7:0 of a command word (R60). -/
def opField (w : Word) : Byte := w.extractLsb' 0 8

/-- Why a command word is illegal (R64). Both end with error kind InvalidCommand. -/
inductive DecodeError where
  /-- Some bit of `zero` is set. -/
  | upperBitsSet
  /-- `op` is 00 or in 06 .. FF. -/
  | reservedOp
deriving DecidableEq, Repr

/-- A row of the command table: `match`, `mask` and the command (R74). -/
structure OpcodeRow where
  pattern : Word
  mask : Word
  instr : Instr
deriving DecidableEq, Repr

/-- The command table (R62): decoding is an exact match of all 32 bits. -/
def opcodeTable : List OpcodeRow :=
  [⟨0x00000001, 0xFFFFFFFF, .init⟩,
   ⟨0x00000002, 0xFFFFFFFF, .encblk⟩,
   ⟨0x00000003, 0xFFFFFFFF, .decblk⟩,
   ⟨0x00000004, 0xFFFFFFFF, .cbcenc⟩,
   ⟨0x00000005, 0xFFFFFFFF, .cbcdec⟩]

/-- The decoder of R74: "compare the 32-bit word with each `match` under `mask`; the first hit names the command; no hit is
InvalidCommand". Total on all 2^32 words. -/
def decode (w : Word) : Except DecodeError Instr :=
  match opcodeTable.find? (fun r => w &&& r.mask == r.pattern) with
  | some r => .ok r.instr
  | none => if zeroField w ≠ 0 then .error .upperBitsSet else .error .reservedOp

/-- The command word of a command (R62). -/
def encode : Instr → Word
  | .init => 0x00000001
  | .encblk => 0x00000002
  | .decblk => 0x00000003
  | .cbcenc => 0x00000004
  | .cbcdec => 0x00000005

/-- The command the decoder reads from a table word of `nbits` bits; a word of more than 32 bits is no command word (R60). -/
def decodeTableWord (nbits w : Nat) : Option Instr :=
  if w % 2 ^ nbits < 2 ^ 32 then
    match decode (BitVec.ofNat 32 (w % 2 ^ nbits)) with
    | .ok i => some i
    | .error _ => none
  else none

end Sys2Proof
end

