-- ==== Sys2Proof/Machine/Port.lean ====
section
/-! DEFINITION. The host port: the address map (30_encoding R66), the host's actions (R68) and the expansion of the
pseudo-actions (R69, R72). -/

namespace Sys2Proof.Machine

/-- A primitive action of a host script (R68), and WAIT, which repeats a read (R69). -/
inductive HostAction where
  /-- `RESET`: assert the reset input (70_reset R180). -/
  | reset
  /-- `WR`: `HostWrite(a, v)` (20_memory R41). -/
  | wr (a v : Word)
  /-- `RD`: `HostRead(a)` (R41). -/
  | rd (a : Word)
  /-- `WAIT`: read STATUS until bit 0 of the value is 0 (R69, R185). -/
  | wait
deriving DecidableEq, Repr

/-- What a location address names (R66). -/
inductive Location where
  | cmd
  | status
  | klen
  | ivlen
  | ilen
  | olen
  | keybuf (i : Nat)
  | ivbuf (i : Nat)
  | rk (i : Nat)
  | ibuf (i : Nat)
  | obuf (i : Nat)
  | unmapped
deriving DecidableEq, Repr

/-- First addresses of the windows of R66. -/
def keybufBase : Nat := 0x10
def ivbufBase : Nat := 0x20
def rkBase : Nat := 0x40
def ibufBase : Nat := 0x10000
def obufBase : Nat := 0x20000

/-- The address map (R42, R66): the location a host port address names. -/
def locate (a : Word) : Location :=
  let n := a.toNat
  if n = 0 then .cmd
  else if n = 1 then .status
  else if n = 2 then .klen
  else if n = 3 then .ivlen
  else if n = 4 then .ilen
  else if n = 5 then .olen
  else if keybufBase ≤ n ∧ n < keybufBase + 16 then .keybuf (n - keybufBase)
  else if ivbufBase ≤ n ∧ n < ivbufBase + 16 then .ivbuf (n - ivbufBase)
  else if rkBase ≤ n ∧ n < rkBase + 32 then .rk (n - rkBase)
  else if ibufBase ≤ n ∧ n < ibufBase + Config.bufBytes then .ibuf (n - ibufBase)
  else if obufBase ≤ n ∧ n < obufBase + Config.bufBytes then .obuf (n - obufBase)
  else .unmapped

/-- The address of a location (R66): `addr(loc)` of R68. An unmapped location has no address of its own; 00000006 is one. -/
def addr : Location → Word
  | .cmd => 0
  | .status => 1
  | .klen => 2
  | .ivlen => 3
  | .ilen => 4
  | .olen => 5
  | .keybuf i => BitVec.ofNat 32 (keybufBase + i)
  | .ivbuf i => BitVec.ofNat 32 (ivbufBase + i)
  | .rk i => BitVec.ofNat 32 (rkBase + i)
  | .ibuf i => BitVec.ofNat 32 (ibufBase + i)
  | .obuf i => BitVec.ofNat 32 (obufBase + i)
  | .unmapped => 6

/-- Whether a location address is one of the byte locations KEYBUF, IVBUF, IBUF, OBUF (R43, R66). -/
def isByteAddr (n : Nat) : Bool :=
  (keybufBase ≤ n && n < keybufBase + 16) || (ivbufBase ≤ n && n < ivbufBase + 16) ||
  (ibufBase ≤ n && n < ibufBase + Config.bufBytes) || (obufBase ≤ n && n < obufBase + Config.bufBytes)

/-- Whether a location address lies in the OBUF window (R66). -/
def inObuf (n : Nat) : Bool := obufBase ≤ n && n < obufBase + Config.bufBytes

/-- `WR` of the bytes of a list to consecutive locations from `at_`, in order (R69). -/
def writeActions (base : Nat) : List Byte → List HostAction
  | [] => []
  | b :: bs => .wr (BitVec.ofNat 32 base) (b.setWidth 32) :: writeActions (base + 1) bs

/-- A mnemonic alone on a line: `WR CMD, <command word>` then `WAIT` (R69). -/
def commandActions (i : Instr) : List HostAction := [.wr (addr .cmd) (encode i), .wait]

/-- `KEY <bytes>` (R69): the first 16 bytes to KEYBUF, the length to KLEN. -/
def keyActions (bs : List Byte) : List HostAction :=
  writeActions keybufBase (bs.take 16) ++ [.wr (addr .klen) (BitVec.ofNat 32 bs.length)]

/-- `IVEC <bytes>` (R69). -/
def ivecActions (bs : List Byte) : List HostAction :=
  writeActions ivbufBase (bs.take 16) ++ [.wr (addr .ivlen) (BitVec.ofNat 32 bs.length)]

/-- `INPUT <bytes>` (R69). DESIGN CHOICE for more than BUF_BYTES bytes, where R69 sets no limit and R66 has no location IBUF[i]: the
writes go on at 00010000 + i, unmapped or read-only addresses that ignore them, and ILEN takes the whole length (log entry 21). -/
def inputActions (bs : List Byte) : List HostAction :=
  writeActions ibufBase bs ++ [.wr (addr .ilen) (BitVec.ofNat 32 bs.length)]

/-- The reads of `OUTPUT = <m bytes>` (R69): OLEN, then OBUF[0..m-1]. -/
def outputActions (m : Nat) : List HostAction :=
  .rd (addr .olen) :: (List.range m).map fun i => .rd (addr (.obuf i))

/-- The read of `EXPECT <kind>` (R69). -/
def expectActions : List HostAction := [.rd (addr .status)]

/-- Construction with key K and IV V: `RESET; KEY K; IVEC V; INIT` (R72, 70_reset R183). -/
def constructActions (k v : List Byte) : List HostAction :=
  .reset :: (keyActions k ++ ivecActions v ++ commandActions .init)

/-- `encrypt(P)` up to its OUTPUT: `INPUT P; CBCENC` (R72). -/
def encryptActions (p : List Byte) : List HostAction := inputActions p ++ commandActions .cbcenc

/-- `decrypt(C)` up to its OUTPUT: `INPUT C; CBCDEC` (R72). -/
def decryptActions (c : List Byte) : List HostAction := inputActions c ++ commandActions .cbcdec

/-- A hexadecimal digit. -/
def hexDigit (n : Nat) : Char := "0123456789ABCDEF".toList.getD n '0'

/-- A word as eight hexadecimal digits (R8, R68). -/
def hexWord (w : Word) : String :=
  String.ofList ((List.range 8).map fun k => hexDigit ((w.toNat / 16 ^ (7 - k)) % 16))

/-- The port event an action stands for, as R68 writes it; RESET is no port event, WAIT is a read of STATUS. -/
def portEvent : HostAction → Option String
  | .reset => none
  | .wr a v => some ("W " ++ hexWord a ++ " " ++ hexWord v)
  | .rd a => some ("R " ++ hexWord a)
  | .wait => some ("R " ++ hexWord (addr .status))

/-- The encoding of a script: its sequence of port events (R68). -/
def portEvents (script : List HostAction) : List String := script.filterMap portEvent

end Sys2Proof.Machine
end

