-- ==== Sys2Proof/Machine/State.lean ====
section
/-! DEFINITION. The machine's state (10_state R13), the result codes (60_exceptions R156), and the state after reset
(70_reset R180). STATE IS PLAIN DATA. -/

namespace Sys2Proof.Machine

/-- The error kinds of STATUS.ERR (60_exceptions R156). Codes 9 .. 15 are never produced (R31), so they have no name. -/
inductive ErrorKind where
  | ok
  | invalidKeyLength
  | invalidIVLength
  | invalidBlockSize
  | invalidCiphertextLength
  | invalidPadding
  | invalidState
  | invalidCommand
  | bufferCapacity
deriving DecidableEq, Repr

/-- PHASE of the sequencer position (10_state R33). -/
inductive Phase where
  | idle
  | ks
  | blkop
  | cbc
deriving DecidableEq, Repr

/-- The sequencer position SEQ = (PHASE, RND, BLK) (10_state R33). -/
structure Seq where
  phase : Phase
  rnd : Nat
  blk : Nat
deriving DecidableEq, Repr

/-- (IDLE, 0, 0) (R33, R180). -/
def Seq.start : Seq := ⟨.idle, 0, 0⟩

/-- Which of the spec's two levels a run is looked at (00_scope R5, 70_reset R184 to R186; log entry 1). -/
inductive Grain where
  /-- The command-atomic level: a command executes completely at its CMD write (20_memory R54, 30_encoding R61). -/
  | command
  /-- The finer level: a command keeps BUSY set for LAT time units (70_reset R184, R190). -/
  | timed
deriving DecidableEq, Repr

/-- Byte locations: (location address, byte) pairs in canonical form, addresses strictly rising and no byte 00. An unlisted
address reads 00, the reset value of every byte location (10_state R14, R16, R22, R24). -/
abbrev Memory := List Host.Cell

/-- The form holds: addresses strictly rising, no entry equal to what an unlisted address reads as. -/
abbrev Memory.wf (m : Memory) : Prop :=
  (m.map Prod.fst).Pairwise (· < ·) ∧ ∀ c ∈ m, c.2 ≠ 0

/-- The state. The first part is the table of 10_state section 1, element by element; the last five fields are the model's own. -/
structure State where
  /-- KEYBUF, IVBUF, IBUF, OBUF at their port addresses (R14, R16, R22, R24, 30_encoding R66; log entry 9). -/
  mem : Memory
  /-- KLEN (R15). -/
  klen : Word
  /-- IVLEN (R17). -/
  ivlen : Word
  /-- ILEN (R23). -/
  ilen : Word
  /-- OLEN (R25). -/
  olen : Word
  /-- KEY (R18). -/
  key : Block
  /-- IV (R19). -/
  iv : Block
  /-- RK[0..31] (R20). -/
  rk : Vector Word 32
  /-- STATUS.BUSY (R27). -/
  busy : Bool
  /-- STATUS.KEYED (R28). -/
  keyed : Bool
  /-- STATUS.ERR (R29). -/
  err : ErrorKind
  /-- L0, L1, R0, R1: block halves (R32, 43_block_core R115). -/
  l0 : Word
  l1 : Word
  r0 : Word
  r1 : Word
  /-- A, B, C, D: key-schedule working words (R32, 42_key_schedule R100). -/
  a : Word
  b : Word
  c : Word
  d : Word
  /-- CHAIN (R32, 44_cbc_wrapper R133). -/
  chain : Block
  /-- SEQ (R33). -/
  seq : Seq
  /-- The word of the command in progress, 0 when none is; hidden (log entry 14). -/
  cmd : Word
  /-- The time units until the command in progress ends, 0 when none is (log entry 4). -/
  left : Nat
  /-- The level the run is looked at (log entry 1). -/
  grain : Grain
  /-- The host's actions not yet performed (log entry 2). -/
  script : List HostAction
  /-- The value the port returned on the last HostRead (log entry 3). -/
  rdata : Word
deriving DecidableEq, Repr

/-- Why the machine stops with a fault: never. Every host action in every state has exactly one outcome, and none of them is a
stop (70_reset R196); an error is a result code in STATUS.ERR (60_exceptions R157). The type has no value, so that no step can
answer a fault (log entry 16): safe. -/
inductive Fault where
deriving DecidableEq, Repr

/-- Why a step is refused. -/
inductive Refusal where
  /-- An instruction that has no meaning yet, rejected by name in exec's arm; raised by no arm of this model. Safe. -/
  | notModelled (mnemonic : String)
deriving DecidableEq, Repr

/-- The state after reset (70_reset R180, 10_state section 1): every element zero, STATUS = 00000000, SEQ = (IDLE, 0, 0). The
model's own fields: no command in progress, the command-atomic level, no host action pending, no value read yet. -/
def State.reset : State where
  mem := []
  klen := 0
  ivlen := 0
  ilen := 0
  olen := 0
  key := 0
  iv := 0
  rk := Vector.replicate 32 0
  busy := false
  keyed := false
  err := .ok
  l0 := 0
  l1 := 0
  r0 := 0
  r1 := 0
  a := 0
  b := 0
  c := 0
  d := 0
  chain := 0
  seq := Seq.start
  cmd := 0
  left := 0
  grain := .command
  script := []
  rdata := 0

end Sys2Proof.Machine
end

