-- ==== Sys2Proof/Machine/Ops.lean ====
section
/-! DEFINITION. The named operations over the byte locations and the registers, and the two ways a command ends: the common
error effect (60_exceptions R157) and success (10_state R24, R25). There is no return from an error (R170). -/

namespace Sys2Proof.Machine

/-- The byte at a location address; an unlisted one reads 00 (10_state R36). -/
def Memory.read : Memory → Nat → Byte
  | [], _ => 0
  | c :: m, n => if n = c.1 then c.2 else Memory.read m n

/-- A byte written to a location address; the canonical form is kept. -/
def Memory.write : Memory → Nat → Byte → Memory
  | [], n, v => if v = 0 then [] else [(n, v)]
  | c :: m, n, v =>
    if n < c.1 then (if v = 0 then c :: m else (n, v) :: c :: m)
    else if n = c.1 then (if v = 0 then m else (n, v) :: m)
    else c :: Memory.write m n v

/-- Bytes written to consecutive location addresses, in order. -/
def Memory.writeBytes (m : Memory) (base : Nat) : List Byte → Memory
  | [] => m
  | v :: vs => Memory.writeBytes (m.write base v) (base + 1) vs

/-- `n` bytes read from consecutive location addresses, in order. -/
def Memory.readBytes (m : Memory) (base n : Nat) : List Byte :=
  (List.range n).map fun k => m.read (base + k)

/-- Every location of the OBUF window set to 00 (R157). -/
def Memory.clearObuf (m : Memory) : Memory := m.filter fun c => !inObuf c.1

/-- OBUF rewritten whole: result byte i at index i, 00 beyond (10_state R24). -/
@[irreducible] def Memory.setObuf (m : Memory) (out : List Byte) : Memory := m.clearObuf.writeBytes obufBase out

/-- Element i of the round-key schedule (10_state R20). -/
def rkAt (rk : Vector Word 32) (i : Nat) : Word := rk.getD i 0

/-- The end of a command: the result code, the result in OBUF with its length in OLEN, BUSY falls, the sequencer is idle
(10_state R24, R25, R29, R33; 70_reset R184 e). -/
def complete (e : ErrorKind) (out : List Byte) (s : State) : State :=
  { s with
    err := e
    olen := BitVec.ofNat 32 out.length
    mem := s.mem.setObuf out
    busy := false
    seq := Seq.start
    cmd := 0
    left := 0 }

/-- A command ends with success and the result `out`. -/
def succeed (out : List Byte) (s : State) : State := complete .ok out s

/-- The common error effect, `fail e` of every pseudocode block (60_exceptions R157): ERR <- code(e), OLEN <- 0, OBUF all 00,
BUSY falls, and no other state changes. This is what the hardware has for an exception entry (R169). -/
def fail (e : ErrorKind) (s : State) : State := complete e [] s

/-- RESET (70_reset R180, R181): every state element takes its reset value, whatever was in progress. The actions the host has
still to perform and the level the run is looked at are not state elements of the hardware and stay (log entry 8). -/
def resetEvent (s : State) : State := { State.reset with script := s.script, grain := s.grain }

end Sys2Proof.Machine
end

