-- ==== Sys2Proof/Machine/Operands.lean ====
section
/-! DEFINITION. The operand forms (30_encoding R73): byte sequences, words and blocks in the spec's byte order (20_memory R45,
R46), and the operands a command takes from the state (R62). -/

namespace Sys2Proof


/-- `be32(b0, b1, b2, b3)`: the word with b0 most significant (00_scope R9). -/
def be32 (b0 b1 b2 b3 : Byte) : Word := b0 ++ b1 ++ b2 ++ b3

/-- `bytes_be(w)`: the four bytes of a word, most significant first (R9). -/
def bytesBe (w : Word) : List Byte :=
  [w.extractLsb' 24 8, w.extractLsb' 16 8, w.extractLsb' 8 8, w.extractLsb' 0 8]

/-- Four words as a block, the first in the lowest byte indices (20_memory R46). -/
def Block.ofWords (w0 w1 w2 w3 : Word) : Block := w0 ++ w1 ++ w2 ++ w3

/-- Word k of a block, k = 0..3 (R46). -/
def Block.word (x : Block) (k : Nat) : Word := x.extractLsb' (96 - 32 * k) 32

/-- Word k of a byte sequence: `be32(X[4k], X[4k+1], X[4k+2], X[4k+3])` (R46). -/
def wordAt (l : List Byte) (k : Nat) : Word :=
  be32 (l.getD (4 * k) 0) (l.getD (4 * k + 1) 0) (l.getD (4 * k + 2) 0) (l.getD (4 * k + 3) 0)

/-- A 16-byte sequence as a block (R46). -/
def Block.ofBytes (l : List Byte) : Block := Block.ofWords (wordAt l 0) (wordAt l 1) (wordAt l 2) (wordAt l 3)

/-- A block as its 16 bytes, `bytes_be(W0) ++ .. ++ bytes_be(W3)` (R46). -/
def Block.toBytes (x : Block) : List Byte :=
  bytesBe (x.word 0) ++ bytesBe (x.word 1) ++ bytesBe (x.word 2) ++ bytesBe (x.word 3)

/-- `xor16(X, Y)` (R9). -/
def xor16 (x y : Block) : Block := x ^^^ y

/-- The blocks of a byte sequence: block b is the bytes at indices 16b .. 16b+15 (R45, 44_cbc_wrapper R130). -/
def blocksOf (l : List Byte) : List Block :=
  (List.range (l.length / 16)).map fun k => Block.ofBytes ((l.drop (16 * k)).take 16)

/-- The concatenation of blocks as a byte sequence. -/
def bytesOf (bs : List Block) : List Byte := bs.flatMap Block.toBytes

namespace Machine

/-- KEYBUF[0..15] (10_state R14). -/
def keyInput (s : State) : Block := Block.ofBytes (s.mem.readBytes keybufBase 16)

/-- IVBUF[0..15] (R16). -/
def ivInput (s : State) : Block := Block.ofBytes (s.mem.readBytes ivbufBase 16)

/-- IBUF[0..15], the operand of ENCBLK and DECBLK (43_block_core R120, R121). -/
def blockInput (s : State) : Block := Block.ofBytes (s.mem.readBytes ibufBase 16)

/-- IBUF[0..ILEN-1], the operand of CBCENC and CBCDEC (44_cbc_wrapper R138, R139). -/
def bufferInput (s : State) : List Byte := s.mem.readBytes ibufBase s.ilen.toNat

end Machine

end Sys2Proof
end

