-- ==== Sys2Proof/Machine/Tables.lean ====
section
/-! DEFINITION. The constant tables (40_constant_tables): S1, S2, the masks, the round constants, the pre-combined tables as
functions of them (R85), and the generating rule (R83) they can be checked against. The values are those the spec gives under its
decision D1 (log entry 11). No step writes them (10_state R34, R80). -/

namespace Sys2Proof.Machine

/-- The sixteen rows of S1 (R81): row `x[7:4]`, columns _0 to _F from the most significant byte. -/
def s1Rows : List (BitVec 128) :=
  [0xA985D6D3541DAC255D43181E51FCCA63#128,
   0x2844209DE0E2C817A58F037BBB13D2EE#128,
   0x708C3FA832DDF674EC950B575C5BBD01#128,
   0x241C739810CCF2D92CE772839BD186C9#128,
   0x6050A3EB0DB69E4FB75AC678A612AFD5#128,
   0x61C3B441527D8D081F9900190453F7E1#128,
   0xFD762F27B08B0EABA26E934D697C090A#128,
   0xBFEFF3C58714FE64DE2E4B1A06216B66#128,
   0x02F5928A0CB37ED07A4796E52680ADDF#128,
   0xA13037AE36152238F4A7454C81E98497#128,
   0x35CBCE3C7111C78975FBDAF8945982C4#128,
   0xFF493967C0CFD7B80F8E4223916CDBA4#128,
   0x34F148C26F3D2D40BE3EBCC1AABA4E55#128,
   0x3BDC687F9CD84A5677A0ED46B52B65FA#128,
   0xE3B9B19F5EF9E6B231EA6D5FE4F0CD88#128,
   0x163A58D462290733E81B0579906A2A9A#128]

/-- The sixteen rows of S2 (R82), same layout. -/
def s2Rows : List (BitVec 128) :=
  [0x38E82DA6CFDEB3B8AF6055C7446F6B5B#128,
   0xC36233B529A0E2A7D39111061CBC364B#128,
   0xEF886CA817C416F4C245E1D63F3D8E98#128,
   0x284EF63EA5F90DDFD82B667A272FF172#128,
   0x42D441C07367AC8BF7AD801FCA2CAA34#128,
   0xD20BEEE95D9418F857AE08C513CD86B9#128,
   0xFF7DC131F58A6AB1D120D70222046871#128,
   0x07DB9D9961BEE659DD5190DC9AA3ABD0#128,
   0x810F471AE3EC8DBF967B5CA2A163234D#128,
   0xC89E9C3A0C2EBA6E9F5AF292F34978CC#128,
   0x15FB70757F351003646DC674D5B4EA09#128,
   0x7619FE4012E0BD05FA01F02A5EA95643#128,
   0x8514899BB0E5487997FC1E82218C1B5F#128,
   0x7754B21D254F0046ED5852EB7EDAC9FD#128,
   0x3095653CB6E4BB7C0E50392632846993#128,
   0x37E724A4CB530A87D94C838FCE3B4AB7#128]

/-- Entry x of a table: row `x[7:4]`, column `x[3:0]` (R81). -/
def sboxEntry (rows : List (BitVec 128)) (x : Byte) : Byte :=
  ((rows.getD (x.toNat / 16) 0) >>> (8 * (15 - x.toNat % 16))).setWidth 8

/-- The round constants KC[0..15] (R86). -/
def kcTable : List Word :=
  [0x9E3779B9#32, 0x3C6EF373#32, 0x78DDE6E6#32, 0xF1BBCDCC#32,
   0xE3779B99#32, 0xC6EF3733#32, 0x8DDE6E67#32, 0x1BBCDCCF#32,
   0x3779B99E#32, 0x6EF3733C#32, 0xDDE6E678#32, 0xBBCDCCF1#32,
   0x779B99E3#32, 0xEF3733C6#32, 0xDE6E678D#32, 0xBCDCCF1B#32]

/-- The tables this hardware holds (R7, R80). -/
def tables : Tables where
  s1 := sboxEntry s1Rows
  s2 := sboxEntry s2Rows
  kc := fun i => kcTable.getD i 0

/-- The diffusion masks (R84). -/
def m0 : Byte := 0xFC
def m1 : Byte := 0xF3
def m2 : Byte := 0xCF
def m3 : Byte := 0x3F

/-- The pre-combined tables SS0 to SS3 (R85). -/
def ss0 (T : Tables) (x : Byte) : Word := be32 (T.s1 x &&& m3) (T.s1 x &&& m2) (T.s1 x &&& m1) (T.s1 x &&& m0)
def ss1 (T : Tables) (x : Byte) : Word := be32 (T.s2 x &&& m0) (T.s2 x &&& m3) (T.s2 x &&& m2) (T.s2 x &&& m1)
def ss2 (T : Tables) (x : Byte) : Word := be32 (T.s1 x &&& m1) (T.s1 x &&& m0) (T.s1 x &&& m3) (T.s1 x &&& m2)
def ss3 (T : Tables) (x : Byte) : Word := be32 (T.s2 x &&& m2) (T.s2 x &&& m1) (T.s2 x &&& m0) (T.s2 x &&& m3)

/-- A byte times x in GF(2^8) with reduction polynomial 163 hex (R83). -/
def gfDouble (y : Byte) : Byte := if y.getLsbD 7 then (y <<< 1) ^^^ 0x63 else y <<< 1

/-- The product in GF(2^8) of a byte and the polynomial whose bits are `bs`, least significant first (R83). -/
def gfMulBits (y : Byte) : List Bool → Byte
  | [] => 0
  | b :: bs => (if b then y else 0) ^^^ gfMulBits (gfDouble y) bs

/-- The product in GF(2^8) (R83). -/
def gfMul (y z : Byte) : Byte := gfMulBits y ((List.range 8).map fun k => z.getLsbD k)

/-- The n-th power in GF(2^8), n < 256, by squaring over the bits of n, most significant first; `0^n = 0` for n > 0 (R83). -/
def gfPow (y : Byte) (n : Nat) : Byte :=
  (List.range 8).foldr (fun k acc => if n.testBit k then gfMul y (gfMul acc acc) else gfMul acc acc) 1

/-- The parity of a byte's bits. -/
def parity (x : Byte) : Bool := (List.range 8).foldl (fun p k => p ^^ x.getLsbD k) false

/-- A bit matrix, row 1 first and producing bit 7, column 1 multiplying bit 7, times a byte (R83). -/
def matMul (rows : List Byte) (v : Byte) : Byte :=
  rows.foldl (fun acc r => (acc <<< 1) ||| (if parity (r &&& v) then 1 else 0)) 0

/-- The matrices A1 and A2 (R83). -/
def matA1 : List Byte :=
  [0b10001010#8, 0b11111110#8, 0b10000101#8, 0b01000010#8, 0b01000101#8, 0b00100001#8, 0b10001000#8, 0b00010100#8]
def matA2 : List Byte :=
  [0b01000101#8, 0b10000101#8, 0b11111110#8, 0b00100001#8, 0b10001010#8, 0b10001000#8, 0b01000010#8, 0b00010100#8]

/-- The generating rule of S1 and S2 (R83): a check of the tables, never a run-time computation. -/
def generatedS1 (x : Byte) : Byte := matMul matA1 (gfPow x 247) ^^^ 0xA9
def generatedS2 (x : Byte) : Byte := matMul matA2 (gfPow x 251) ^^^ 0x38

end Sys2Proof.Machine
end

