-- ==== Sys2Proof/Machine/RoundFunction.lean ====
section
/-! DEFINITION. The round function: G and F (41_round_function). Both are pure and total. -/

namespace Sys2Proof.Machine

/-- G, reference form (R91): four lookups, S1 and S2 alternating by byte position, then the XOR mixing. -/
def g (T : Tables) (x : Word) : Word :=
  let y0 := T.s1 (x.extractLsb' 0 8)
  let y1 := T.s2 (x.extractLsb' 8 8)
  let y2 := T.s1 (x.extractLsb' 16 8)
  let y3 := T.s2 (x.extractLsb' 24 8)
  let z0 := (y0 &&& m0) ^^^ (y1 &&& m1) ^^^ (y2 &&& m2) ^^^ (y3 &&& m3)
  let z1 := (y0 &&& m1) ^^^ (y1 &&& m2) ^^^ (y2 &&& m3) ^^^ (y3 &&& m0)
  let z2 := (y0 &&& m2) ^^^ (y1 &&& m3) ^^^ (y2 &&& m0) ^^^ (y3 &&& m1)
  let z3 := (y0 &&& m3) ^^^ (y1 &&& m0) ^^^ (y2 &&& m1) ^^^ (y3 &&& m2)
  be32 z3 z2 z1 z0

/-- G, table form (R92), over the pre-combined tables of R85. -/
def gTable (T : Tables) (x : Word) : Word :=
  ss0 T (x.extractLsb' 0 8) ^^^ ss1 T (x.extractLsb' 8 8) ^^^ ss2 T (x.extractLsb' 16 8) ^^^ ss3 T (x.extractLsb' 24 8)

/-- F (R93): XOR with the key words, XOR of the two (R95, 90_conflicts C1), then three substitutions and three additions. -/
def f (T : Tables) (c d k0 k1 : Word) : Word × Word :=
  let t0 := c ^^^ k0
  let t1 := d ^^^ k1
  let g1 := g T (t0 ^^^ t1)
  let g2 := g T (t0 + g1)
  let g3 := g T (g1 + g2)
  (g2 + g3, g3)

end Sys2Proof.Machine
end

