-- ==== Sys2Proof/Machine/BlockCore.lean ====
section
/-! DEFINITION. The 16-round block engine and the commands ENCBLK and DECBLK (43_block_core). -/

namespace Sys2Proof.Machine

/-- The two halves of a block as words, left (L0, L1) and right (R0, R1) (R115). -/
structure Halves where
  l0 : Word
  l1 : Word
  r0 : Word
  r1 : Word
deriving DecidableEq, Repr

/-- A block split into halves (R115). -/
def Halves.load (x : Block) : Halves := ⟨x.word 0, x.word 1, x.word 2, x.word 3⟩

/-- The block of (L0, L1, R0, R1) (R115). -/
def Halves.toBlock (h : Halves) : Block := Block.ofWords h.l0 h.l1 h.r0 h.r1

/-- One round without the swap: F of the right half and the round-key pair, XORed into the left half (R116). -/
def feistelRound (T : Tables) (k : Word × Word) (h : Halves) : Halves :=
  let p := f T h.r0 h.r1 k.1 k.2
  { h with l0 := h.l0 ^^^ p.1, l1 := h.l1 ^^^ p.2 }

/-- The swap of left and right (R116). -/
def Halves.swap (h : Halves) : Halves := ⟨h.r0, h.r1, h.l0, h.l1⟩

/-- The rounds over a list of round-key pairs, with a swap after every round but the last (R116). -/
def rounds (T : Tables) : List (Word × Word) → Halves → Halves
  | [], h => h
  | [k], h => feistelRound T k h
  | k :: k' :: ks, h => rounds T (k' :: ks) (feistelRound T k h).swap

/-- Round-key pair i: (RK[2i], RK[2i+1]) (00_scope R12, 10_state R20). -/
def roundKeyPair (rk : Vector Word 32) (i : Nat) : Word × Word := (rkAt rk (2 * i), rkAt rk (2 * i + 1))

/-- The 16 round-key pairs in ascending order (R127). -/
def roundKeyPairs (rk : Vector Word 32) : List (Word × Word) := (List.range 16).map (roundKeyPair rk)

/-- EncryptBlock (R116). -/
@[irreducible] def encryptBlock (T : Tables) (rk : Vector Word 32) (x : Block) : Block :=
  (rounds T (roundKeyPairs rk) (Halves.load x)).toBlock

/-- DecryptBlock (R117): the identical network with the pairs in reverse order. -/
@[irreducible] def decryptBlock (T : Tables) (rk : Vector Word 32) (x : Block) : Block :=
  (rounds T (roundKeyPairs rk).reverse (Halves.load x)).toBlock

/-- The rounds in the form without swap (R118): `P ^= F(Q, pair)` in even rounds, `Q ^= F(P, pair)` in odd ones. -/
def unswappedRounds (T : Tables) : Bool → List (Word × Word) → Halves → Halves
  | _, [], h => h
  | even, k :: ks, h =>
    unswappedRounds T (!even) ks (if even then feistelRound T k h else (feistelRound T k h.swap).swap)

/-- The block function in the form without swap: the halves appear exchanged at the output (R118). -/
def unswappedBlock (T : Tables) (pairs : List (Word × Word)) (x : Block) : Block :=
  (unswappedRounds T true pairs (Halves.load x)).swap.toBlock

/-- The hidden words L0, L1, R0, R1 of the state (10_state R32). -/
def State.halves (s : State) : Halves := ⟨s.l0, s.l1, s.r0, s.r1⟩

/-- The hidden words L0, L1, R0, R1 written. -/
def State.setHalves (s : State) (h : Halves) : State := { s with l0 := h.l0, l1 := h.l1, r0 := h.r0, r1 := h.r1 }

/-- The checks of ENCBLK and DECBLK, in the order written (R120, R121). -/
def blockCheck (s : State) : ErrorKind :=
  if !s.keyed then .invalidState
  else if s.ilen ≠ 16 then .invalidBlockSize
  else .ok

/-- The success of a block command with result block y: the hidden halves hold y's words (log entry 12), OBUF y's bytes. -/
def blockResult (y : Block) (s : State) : State := succeed y.toBytes (s.setHalves (Halves.load y))

/-- ENCBLK (R120). -/
def execEncblk (s : State) : Host.Outcome State Fault Refusal :=
  match blockCheck s with
  | .ok => .next (blockResult (encryptBlock tables s.rk (blockInput s)) s)
  | e => .next (fail e s)

/-- DECBLK (R121). -/
def execDecblk (s : State) : Host.Outcome State Fault Refusal :=
  match blockCheck s with
  | .ok => .next (blockResult (decryptBlock tables s.rk (blockInput s)) s)
  | e => .next (fail e s)

end Sys2Proof.Machine
end

