-- ==== Sys2Proof/Machine/Cbc.lean ====
section
/-! DEFINITION. The CBC wrapper: padding, the padding validator, chaining, and the commands CBCENC and CBCDEC
(44_cbc_wrapper). -/

namespace Sys2Proof.Machine

/-- `N = 16 - (len(P) mod 16)` (R131). -/
def padLength (n : Nat) : Nat := 16 - n % 16

/-- Pad (R131): N copies of the byte N, 1 <= N <= 16. -/
def pad (p : List Byte) : List Byte :=
  p ++ List.replicate (padLength p.length) (BitVec.ofNat 8 (padLength p.length))

/-- Unpad, the padding validator (R132). -/
def unpad (q : List Byte) : Except ErrorKind (List Byte) :=
  let n := (q.getD (q.length - 1) 0).toNat
  if n < 1 ∨ 16 < n then .error .invalidPadding
  else if (q.drop (q.length - n)).all (fun b => b.toNat == n) then .ok (q.take (q.length - n))
  else .error .invalidPadding

/-- The chained encryption of blocks from the chaining value `prev` (R134): C_b. -/
def cbcEncryptBlocks (T : Tables) (rk : Vector Word 32) : Block → List Block → List Block
  | _, [] => []
  | prev, m :: ms =>
    let c := encryptBlock T rk (xor16 m prev)
    c :: cbcEncryptBlocks T rk c ms

/-- The chained decryption of blocks from the chaining value `prev` (R135): Q_b. The next chaining value is the INPUT
ciphertext block (R136). -/
def cbcDecryptBlocks (T : Tables) (rk : Vector Word 32) : Block → List Block → List Block
  | _, [] => []
  | prev, c :: cs => xor16 (decryptBlock T rk c) prev :: cbcDecryptBlocks T rk c cs

/-- CbcEncrypt (R134). -/
def cbcEncrypt (T : Tables) (rk : Vector Word 32) (iv : Block) (p : List Byte) : List Byte :=
  bytesOf (cbcEncryptBlocks T rk iv (blocksOf (pad p)))

/-- CbcDecrypt (R135): the length is checked before any block is processed. -/
def cbcDecrypt (T : Tables) (rk : Vector Word 32) (iv : Block) (cx : List Byte) : Except ErrorKind (List Byte) :=
  if cx.length = 0 ∨ cx.length % 16 ≠ 0 then .error .invalidCiphertextLength
  else unpad (bytesOf (cbcDecryptBlocks T rk iv (blocksOf cx)))

/-- The last block of a byte sequence. -/
def lastBlock (l : List Byte) : Block := (blocksOf l).getLastD 0

/-- The checks of CBCENC, in the order written (R138). -/
def cbcencCheck (s : State) : ErrorKind :=
  if !s.keyed then .invalidState
  else if s.ilen.toNat > Config.bufBytes - 1 then .bufferCapacity
  else .ok

/-- The checks of CBCDEC that precede every read of IBUF, in the order written (R139, R147). -/
def cbcdecCheck (s : State) : ErrorKind :=
  if !s.keyed then .invalidState
  else if s.ilen.toNat > Config.bufBytes then .bufferCapacity
  else if s.ilen.toNat = 0 ∨ s.ilen.toNat % 16 ≠ 0 then .invalidCiphertextLength
  else .ok

/-- The hidden words after the chained encryption of a buffer: CHAIN and the halves hold the last ciphertext block (R134; log
entry 12). -/
def afterCbcEncrypt (y : List Byte) (s : State) : State :=
  { s.setHalves (Halves.load (lastBlock y)) with chain := lastBlock y }

/-- The hidden words after the chained decryption of a buffer: CHAIN holds the last ciphertext block, the halves its
decryption (R135; log entry 12). -/
def afterCbcDecrypt (cx : List Byte) (s : State) : State :=
  { s.setHalves (Halves.load (decryptBlock tables s.rk (lastBlock cx))) with chain := lastBlock cx }

/-- CBCENC (R138). -/
def execCbcenc (s : State) : Host.Outcome State Fault Refusal :=
  match cbcencCheck s with
  | .ok =>
    let y := cbcEncrypt tables s.rk s.iv (bufferInput s)
    .next (succeed y (afterCbcEncrypt y s))
  | e => .next (fail e s)

/-- CBCDEC (R139). A failed Unpad ends with InvalidPadding, its bytes only ever in hidden state. -/
def execCbcdec (s : State) : Host.Outcome State Fault Refusal :=
  match cbcdecCheck s with
  | .ok =>
    match cbcDecrypt tables s.rk s.iv (bufferInput s) with
    | .ok y => .next (succeed y (afterCbcDecrypt (bufferInput s) s))
    | .error _ => .next (fail .invalidPadding (afterCbcDecrypt (bufferInput s) s))
  | e => .next (fail e s)

end Sys2Proof.Machine
end

