-- ==== Sys2Proof/Machine/KeySchedule.lean ====
section
/-! DEFINITION. The key schedule expander and the INIT command (42_key_schedule). -/

namespace Sys2Proof.Machine

/-- The working words A, B, C, D (R100). -/
structure KeyWords where
  a : Word
  b : Word
  c : Word
  d : Word
deriving DecidableEq, Repr

/-- The key split big-endian into A, B, C, D (R100). -/
def KeyWords.load (k : Block) : KeyWords := ⟨k.word 0, k.word 1, k.word 2, k.word 3⟩

/-- `rotr64(A || B, 8)` on the first half (R101, 45_arithmetic R151). -/
def rotateFirst (w : KeyWords) : KeyWords :=
  let v := ((w.a ++ w.b : DWord)).rotateRight 8
  { w with a := v.extractLsb' 32 32, b := v.extractLsb' 0 32 }

/-- `rotl64(C || D, 8)` on the second half (R101, R151). -/
def rotateSecond (w : KeyWords) : KeyWords :=
  let v := ((w.c ++ w.d : DWord)).rotateLeft 8
  { w with c := v.extractLsb' 32 32, d := v.extractLsb' 0 32 }

/-- The update after round i: even rounds rotate the first half, odd rounds the second (R101). -/
def keyRotate (i : Nat) (w : KeyWords) : KeyWords := if i % 2 = 0 then rotateFirst w else rotateSecond w

/-- `T0 = (A +32 C) -32 KC[i]` (R101). -/
def keyT0 (T : Tables) (i : Nat) (w : KeyWords) : Word := w.a + w.c - T.kc i

/-- `T1 = (B -32 D) +32 KC[i]` (R101). -/
def keyT1 (T : Tables) (i : Nat) (w : KeyWords) : Word := w.b - w.d + T.kc i

/-- The round-key pair of round i from the working words at its start: G of T0 and G of T1, not F (R101, R103). -/
def keyPair (T : Tables) (i : Nat) (w : KeyWords) : Word × Word := (g T (keyT0 T i w), g T (keyT1 T i w))

/-- The working words at the start of round i; at i = 16, after the last round (R101, R104 a). -/
def keyWordsAt (k : Block) : Nat → KeyWords
  | 0 => KeyWords.load k
  | i + 1 => keyRotate i (keyWordsAt k i)

/-- Word j of the schedule: `RK[2i] = G(T0)`, `RK[2i+1] = G(T1)` of round i = j / 2 (R101). -/
def keyScheduleWord (T : Tables) (k : Block) (j : Nat) : Word :=
  let p := keyPair T (j / 2) (keyWordsAt k (j / 2))
  if j % 2 = 0 then p.1 else p.2

/-- KeySchedule (R101): 128-bit key to 32 round-key words. -/
@[irreducible] def keySchedule (T : Tables) (k : Block) : Vector Word 32 :=
  ⟨((List.range 32).map (keyScheduleWord T k)).toArray, by simp⟩

/-- The hidden working words A, B, C, D of the state (10_state R32). -/
def State.keyWords (s : State) : KeyWords := ⟨s.a, s.b, s.c, s.d⟩

/-- The hidden working words written. -/
def State.setKeyWords (s : State) (w : KeyWords) : State := { s with a := w.a, b := w.b, c := w.c, d := w.d }

/-- The checks of INIT, in the order written (R106 to R108, 60_exceptions R167). -/
def initCheck (s : State) : ErrorKind :=
  if s.keyed then .invalidState
  else if s.klen ≠ 16 then .invalidKeyLength
  else if s.ivlen ≠ 16 then .invalidIVLength
  else .ok

/-- What a successful INIT leaves before it completes: KEY, IV, RK, KEYED latched together (R106, R111), and the hidden words
as the loop of R101 leaves them (log entry 12). -/
def latchInstance (s : State) : State :=
  { s.setKeyWords (keyWordsAt (keyInput s) 16) with
    key := keyInput s
    iv := ivInput s
    rk := keySchedule tables (keyInput s)
    keyed := true }

/-- INIT (R106). -/
def execInit (s : State) : Host.Outcome State Fault Refusal :=
  match initCheck s with
  | .ok => .next (succeed [] (latchInstance s))
  | e => .next (fail e s)

end Sys2Proof.Machine
end

