-- ==== Sys2Proof/Machine/Dispatch.lean ====
section
/-! DEFINITION. The meaning of each command, one arm per constructor. -/

namespace Sys2Proof.Machine

def exec (i : Instr) (s : State) : Host.Outcome State Fault Refusal :=
  match i with
  -- R106
  | .init => Sys2Proof.Machine.execInit s
  -- R120
  | .encblk => Sys2Proof.Machine.execEncblk s
  -- R121
  | .decblk => Sys2Proof.Machine.execDecblk s
  -- R138
  | .cbcenc => Sys2Proof.Machine.execCbcenc s
  -- R139
  | .cbcdec => Sys2Proof.Machine.execCbcdec s

end Sys2Proof.Machine
end

