-- ==== Sys2Proof/Machine/Flags.lean ====
section
/-! DEFINITION. STATUS: the error codes (60_exceptions R156) and the layout of the status word (30_encoding R67). There are no
condition codes (10_state R29). -/

namespace Sys2Proof.Machine

/-- The code of an error kind in STATUS.ERR (R156). -/
def ErrorKind.code : ErrorKind → BitVec 4
  | .ok => 0
  | .invalidKeyLength => 1
  | .invalidIVLength => 2
  | .invalidBlockSize => 3
  | .invalidCiphertextLength => 4
  | .invalidPadding => 5
  | .invalidState => 6
  | .invalidCommand => 7
  | .bufferCapacity => 8

/-- STATUS as a read returns it: bit 0 BUSY, bit 1 KEYED, bits 3:2 zero, bits 7:4 ERR, bits 31:8 zero (R30, R67). -/
def statusWord (s : State) : Word :=
  0#24 ++ s.err.code ++ 0#2 ++ BitVec.ofBool s.keyed ++ BitVec.ofBool s.busy

end Sys2Proof.Machine
end

