-- ==== Sys2Proof/Machine/Sequencer.lean ====
section
/-! DEFINITION. Below the command-atomic level: the hidden sequencer (10_state R32, R33; R112, R126, R149) and the time a
command keeps BUSY set (70_reset R190). Nothing here is visible to the host before the command's end (R184 d, e). -/

namespace Sys2Proof.Machine

/-- PHASE of a command in progress (R112, R126, R149). -/
def phaseOf : Instr → Phase
  | .init => .ks
  | .encblk => .blkop
  | .decblk => .blkop
  | .cbcenc => .cbc
  | .cbcdec => .cbc

/-- The checks a command makes before it touches any operand (60_exceptions R167). -/
def commandCheck : Instr → State → ErrorKind
  | .init => initCheck
  | .encblk => blockCheck
  | .decblk => blockCheck
  | .cbcenc => cbcencCheck
  | .cbcdec => cbcdecCheck

/-- The number of values BLK takes: one per block for the CBC commands (R149), else 1. -/
def blockCount (i : Instr) (s : State) : Nat :=
  match i with
  | .cbcenc => s.ilen.toNat / 16 + 1
  | .cbcdec => s.ilen.toNat / 16
  | _ => 1

/-- `LAT(cmd, state)` (R7, R190): at least 1, bounded by a constant for INIT, ENCBLK, DECBLK and by a constant plus a constant
times `ILEN div 16 + 1` for CBCENC, CBCDEC. Nothing else is known of it (log entry 4). -/
def latency (i : Instr) (s : State) : Nat :=
  match i with
  | .cbcenc => 1 + Config.lat i s % (Config.latBase + Config.latPerBlock * (s.ilen.toNat / 16 + 1) + 1)
  | .cbcdec => 1 + Config.lat i s % (Config.latBase + Config.latPerBlock * (s.ilen.toNat / 16 + 1) + 1)
  | _ => 1 + Config.lat i s % (Config.latBase + 1)

/-- The round-key pair of round RND: ascending for encryption, descending for decryption (R126, R127). -/
def pairIndex (i : Instr) (rnd : Nat) : Nat :=
  match i with
  | .decblk => 15 - rnd
  | .cbcdec => 15 - rnd
  | _ => rnd

/-- Round RND of the block engine, with the swap except after round 15 (43_block_core R116, R117). -/
def engineRound (i : Instr) (rk : Vector Word 32) (rnd : Nat) (h : Halves) : Halves :=
  let h' := feistelRound tables (roundKeyPair rk (pairIndex i rnd)) h
  if rnd < 15 then h'.swap else h'

/-- The input blocks of a CBC command: the pad bytes are generated on the fly for encryption, so IBUF is not written (R149). -/
def cbcInputs (i : Instr) (s : State) : List Block :=
  match i with
  | .cbcenc => blocksOf (pad (bufferInput s))
  | _ => blocksOf (bufferInput s)

/-- Block number b of a CBC command loaded into L0, L1, R0, R1: XORed with CHAIN for encryption (R134), as it is for
decryption (R135). -/
def cbcLoad (i : Instr) (b : Nat) (s : State) : State :=
  let m := (cbcInputs i s).getD b 0
  match i with
  | .cbcenc => s.setHalves (Halves.load (xor16 m s.chain))
  | _ => s.setHalves (Halves.load m)

/-- The hidden words as a command whose checks have passed loads them (R100, R115, R134, R135). -/
def seqLoad (i : Instr) (s : State) : State :=
  match i with
  | .init => s.setKeyWords (KeyWords.load (keyInput s))
  | .encblk => s.setHalves (Halves.load (blockInput s))
  | .decblk => s.setHalves (Halves.load (blockInput s))
  | .cbcenc => cbcLoad i 0 { s with chain := s.iv }
  | .cbcdec => cbcLoad i 0 { s with chain := s.iv }

/-- A command word is accepted: BUSY rises for LAT time units and the sequencer leaves IDLE (10_state R27, R33; R184). -/
def accept (i : Instr) (w : Word) (s : State) : State :=
  let s' := { s with busy := true, cmd := w, left := latency i s, seq := ⟨phaseOf i, 0, 0⟩ }
  if commandCheck i s = .ok then seqLoad i s' else s'

/-- One round of PHASE KS: one iteration of the loop of KeySchedule (R101, R112). -/
def ksRound (s : State) : State :=
  let p := keyPair tables s.seq.rnd s.keyWords
  { s.setKeyWords (keyRotate s.seq.rnd s.keyWords) with
    rk := (s.rk.setIfInBounds (2 * s.seq.rnd) p.1).setIfInBounds (2 * s.seq.rnd + 1) p.2
    seq := { s.seq with rnd := s.seq.rnd + 1 } }

/-- One round of PHASE BLKOP (R126). -/
def blkRound (i : Instr) (s : State) : State :=
  { s.setHalves (engineRound i s.rk s.seq.rnd s.halves) with seq := { s.seq with rnd := s.seq.rnd + 1 } }

/-- The end of block BLK of a CBC command: its result block to OBUF, CHAIN, and the next block (R134, R135, R149). DESIGN CHOICE:
each result block but the last goes to OBUF at its block's end, for decryption too, where R149 says only that the hardware may do
so; bytes of the previous result stay until the command's end rewrites OBUF whole (log entry 22). -/
def cbcBlockEnd (i : Instr) (s : State) : State :=
  let y := s.halves.toBlock
  let out := match i with
    | .cbcenc => y
    | _ => xor16 y s.chain
  let next := match i with
    | .cbcenc => y
    | _ => (cbcInputs i s).getD s.seq.blk 0
  cbcLoad i (s.seq.blk + 1)
    { s with
      mem := s.mem.writeBytes (obufBase + 16 * s.seq.blk) out.toBytes
      chain := next
      seq := { s.seq with rnd := 0, blk := s.seq.blk + 1 } }

/-- One round of PHASE CBC (R149). -/
def cbcRound (i : Instr) (s : State) : State :=
  let s' := s.setHalves (engineRound i s.rk s.seq.rnd s.halves)
  if s.seq.rnd < 15 then { s' with seq := { s.seq with rnd := s.seq.rnd + 1 } } else cbcBlockEnd i s'

/-- One round of the command in progress. -/
def seqRound (i : Instr) (s : State) : State :=
  match i with
  | .init => ksRound s
  | .encblk => blkRound i s
  | .decblk => blkRound i s
  | .cbcenc => cbcRound i s
  | .cbcdec => cbcRound i s

/-- Whether the sequencer stands at the last round of the last block, which ends with the command itself. -/
def seqAtLast (i : Instr) (s : State) : Bool := decide (15 ≤ s.seq.rnd) && decide (blockCount i s ≤ s.seq.blk + 1)

/-- One step of the sequencer: nothing where the checks failed (R112, R126) or the last round is reached. -/
def microStep (s : State) : State :=
  match decode s.cmd with
  | .error _ => s
  | .ok i => if commandCheck i s = .ok && !seqAtLast i s then seqRound i s else s

/-- n steps of the sequencer. -/
def advance : Nat → State → State
  | 0, s => s
  | n + 1, s => advance n (microStep s)

end Sys2Proof.Machine
end

