-- ==== Sys2Proof/Machine/Host.lean ====
section
/-! DEFINITION. The host port: HostRead, HostWrite and the host's actions (20_memory R41 to R44, R51; 30_encoding R61, R64,
R66, R69), the behaviour while BUSY = 1 (70_reset R184), and one time unit of a busy core. -/

namespace Sys2Proof.Machine

/-- `HostRead(a)` of a core that is not busy (R43, R44, R66). -/
def idleRead (s : State) (a : Word) : Word :=
  match locate a with
  | .cmd => 0
  | .status => statusWord s
  | .klen => s.klen
  | .ivlen => s.ivlen
  | .ilen => s.ilen
  | .olen => s.olen
  | .keybuf i => (s.mem.read (keybufBase + i)).setWidth 32
  | .ivbuf i => (s.mem.read (ivbufBase + i)).setWidth 32
  | .rk i => rkAt s.rk i
  | .ibuf i => (s.mem.read (ibufBase + i)).setWidth 32
  | .obuf i => (s.mem.read (obufBase + i)).setWidth 32
  | .unmapped => 0

/-- `HostRead(a)`: while BUSY = 1 STATUS is read as it stands, every other location reads 00000000 (R184 a, b). -/
def hostRead (s : State) (a : Word) : Word :=
  if s.busy then (if locate a = .status then statusWord s else 0) else idleRead s a

/-- A word written to CMD while BUSY = 0 (R61, R64): an illegal word ends at once with InvalidCommand; a command executes
completely at the command-atomic level and is accepted at the finer one (R54, R184). -/
def issue (w : Word) (s : State) : Host.Outcome State Fault Refusal :=
  match decode w with
  | .error _ => .next (fail .invalidCommand s)
  | .ok i =>
    match s.grain with
    | .command => exec i s
    | .timed => .next (accept i w s)

/-- `HostWrite(a, v)`: ignored while BUSY = 1 (R184 c); a byte location stores bits 7:0 (R43); a read-only or unmapped
location ignores the write (R44). -/
def hostWrite (s : State) (a v : Word) : Host.Outcome State Fault Refusal :=
  if s.busy then .next s
  else
    match locate a with
    | .cmd => issue v s
    | .klen => .next { s with klen := v }
    | .ivlen => .next { s with ivlen := v }
    | .ilen => .next { s with ilen := v }
    | .keybuf i => .next { s with mem := s.mem.write (keybufBase + i) (v.setWidth 8) }
    | .ivbuf i => .next { s with mem := s.mem.write (ivbufBase + i) (v.setWidth 8) }
    | .ibuf i => .next { s with mem := s.mem.write (ibufBase + i) (v.setWidth 8) }
    | .status => .next s
    | .olen => .next s
    | .rk _ => .next s
    | .obuf _ => .next s
    | .unmapped => .next s

/-- WAIT: one read of STATUS; the action stays pending while bit 0 of the value is 1 (R69, R185). -/
def waitOnce (s : State) : State :=
  let v := hostRead s (addr .status)
  if v.getLsbD 0 then { s with rdata := v, script := .wait :: s.script } else { s with rdata := v }

/-- One action of the host, already taken from the script. -/
def act (x : HostAction) (s : State) : Host.Outcome State Fault Refusal :=
  match x with
  | .reset => .next (resetEvent s)
  | .wr a v => hostWrite s a v
  | .rd a => .next { s with rdata := hostRead s a }
  | .wait => .next (waitOnce s)

/-- The host's part of a time unit of a busy core: its next access, if it makes one in this unit (R184, R193; log entry 5). -/
def hostTurn (s : State) : Host.Outcome State Fault Refusal :=
  match s.script with
  | [] => .next s
  | x :: rest => if Config.hostActs s then act x { s with script := rest } else .next s

/-- The end of the command in progress: all its architectural writes and the fall of BUSY together (R184 e). A latched word
that is no command, which no acceptance leaves, ends with InvalidCommand (log entry 17). -/
def endCommand (s : State) : Host.Outcome State Fault Refusal :=
  match decode s.cmd with
  | .ok i => exec i s
  | .error _ => .next (fail .invalidCommand s)

/-- The core's part of a time unit: the last one ends the command, another one moves the hidden sequencer some rounds
(R33, R190; log entry 6). -/
def coreTurn (s : State) : Host.Outcome State Fault Refusal :=
  if s.left ≤ 1 then endCommand s else .next (advance (Config.pace s) { s with left := s.left - 1 })

/-- One time unit of a busy core: the host first, then the core, unless RESET has abandoned the command (R181, R184). -/
def busyUnit (s : State) : Host.Outcome State Fault Refusal :=
  match hostTurn s with
  | .next s' => if s'.busy then coreTurn s' else .next s'
  | .fault r => .fault r
  | .refused r => .refused r

/-- A core that is not busy: the host's next action, or nothing (R54, R176, R194). -/
def idleUnit (s : State) : Host.Outcome State Fault Refusal :=
  match s.script with
  | [] => .next s
  | x :: rest => act x { s with script := rest }

end Sys2Proof.Machine
end

