-- ==== Sys2Proof/Machine/Step.lean ====
section
/-! DEFINITION. One step of the machine, and the placing of a command word where the next step takes it. -/

namespace Sys2Proof.Machine

/-- One step: while BUSY = 0 the host's next action (20_memory R54), while BUSY = 1 one time unit (70_reset R184). -/
def step (s : State) : Host.Outcome State Fault Refusal := if s.busy then busyUnit s else idleUnit s

/-- `s` with a command word placed as the host's next action, the write of it to CMD, in a core that is not busy and at the
command-atomic level, so that the very next step runs it (30_encoding R61; log entry 2). -/
def State.withFetchWord (s : State) (nbits w : Nat) : State :=
  { s with
    script := .wr (addr .cmd) (BitVec.ofNat 32 (w % 2 ^ nbits)) :: s.script
    busy := false
    grain := .command }

end Sys2Proof.Machine
end

