-- ==== Sys2Proof/Safety.lean ====
section
/-! DEFINITION. The terms claims use: what a command leaves alone, what an output is, what an error leaves, and the invariants
of the machine. -/

namespace Sys2Proof.Safety

open Sys2Proof.Machine

/-- Byte i of OBUF (10_state R24). -/
def obufByte (s : State) (i : Nat) : Byte := s.mem.read (obufBase + i)

/-- Byte i of IBUF (10_state R22). -/
def ibufByte (s : State) (i : Nat) : Byte := s.mem.read (ibufBase + i)

/-- No command is in progress: BUSY = 0, SEQ = (IDLE, 0, 0) (10_state R27, R33), nothing latched. -/
def Idle (s : State) : Prop := s.busy = false ∧ s.seq = Seq.start ∧ s.cmd = 0 ∧ s.left = 0

/-- KLEN, IVLEN, ILEN and every byte outside OBUF are unchanged: KEYBUF, IVBUF, IBUF and every unmapped address. -/
def StagingUnchanged (s t : State) : Prop :=
  t.klen = s.klen ∧ t.ivlen = s.ivlen ∧ t.ilen = s.ilen ∧ ∀ n, inObuf n = false → t.mem.read n = s.mem.read n

/-- KEY, IV, RK and KEYED are unchanged. -/
def InstanceUnchanged (s t : State) : Prop :=
  t.key = s.key ∧ t.iv = s.iv ∧ t.rk = s.rk ∧ t.keyed = s.keyed

/-- OLEN, ERR and every byte of OBUF are unchanged. -/
def ResultUnchanged (s t : State) : Prop :=
  t.olen = s.olen ∧ t.err = s.err ∧ ∀ i, i < Config.bufBytes → obufByte t i = obufByte s i

/-- The hidden words A, B, C, D are unchanged. -/
def KeyWordsUnchanged (s t : State) : Prop := t.a = s.a ∧ t.b = s.b ∧ t.c = s.c ∧ t.d = s.d

/-- The hidden words L0, L1, R0, R1 are unchanged. -/
def HalvesUnchanged (s t : State) : Prop := t.l0 = s.l0 ∧ t.l1 = s.l1 ∧ t.r0 = s.r0 ∧ t.r1 = s.r1

/-- The model's own fields about the host are unchanged. -/
def HostUnchanged (s t : State) : Prop := t.grain = s.grain ∧ t.script = s.script ∧ t.rdata = s.rdata

/-- OBUF and OLEN hold exactly the result `out`: result byte i at index i, 00 beyond (10_state R24, R25). -/
def OutputIs (t : State) (out : List Byte) : Prop :=
  t.olen.toNat = out.length ∧ ∀ i, i < Config.bufBytes → obufByte t i = out.getD i 0

/-- The common error effect from `s` to `t` with kind `e` (60_exceptions R157). -/
def ErrorEffect (e : ErrorKind) (s t : State) : Prop :=
  t.err = e ∧ OutputIs t [] ∧ Idle t ∧ StagingUnchanged s t ∧ InstanceUnchanged s t ∧ HostUnchanged s t

/-- A command's success from `s` to `t` with result `out`, apart from the instance and the hidden words. -/
def SuccessEffect (out : List Byte) (s t : State) : Prop :=
  t.err = .ok ∧ OutputIs t out ∧ Idle t ∧ StagingUnchanged s t ∧ HostUnchanged s t

/-- The byte locations are in canonical form and nothing outside KEYBUF, IVBUF, IBUF, OBUF is held. -/
def MemoryInv (s : State) : Prop := s.mem.wf ∧ ∀ c ∈ s.mem, isByteAddr c.1 = true

/-- PHASE = IDLE iff BUSY = 0, with RND in 0..15 and BLK in 0 .. BUF_BYTES/16 - 1 (10_state R33); a busy core has time left and
a command latched whose phase it is in. -/
def SequencerInv (s : State) : Prop :=
  (s.busy = false → Idle s) ∧
  (s.busy = true → 1 ≤ s.left ∧ ∃ i, decode s.cmd = .ok i ∧ s.seq.phase = phaseOf i) ∧
  s.seq.rnd < 16 ∧ s.seq.blk < Config.bufBytes / 16

/-- An instance's schedule is that of its key; without an instance KEY and IV are zero, and so is RK, except for what a running
INIT has written of it (10_state R20, R21). -/
def InstanceInv (s : State) : Prop :=
  (s.keyed = true → s.rk = keySchedule tables s.key) ∧
  (s.keyed = false → s.key = 0 ∧ s.iv = 0 ∧
    (s.rk = Vector.replicate 32 0 ∨ (s.busy = true ∧ decode s.cmd = .ok .init ∧ initCheck s = .ok)))

/-- Whenever BUSY = 0, OLEN is at most BUF_BYTES, OBUF is 00 from OLEN on, and an error leaves no output (10_state R24, R25,
60_exceptions R157). -/
def OutputInv (s : State) : Prop :=
  s.busy = false →
    s.olen.toNat ≤ Config.bufBytes ∧ (∀ i, i < Config.bufBytes → s.olen.toNat ≤ i → obufByte s i = 0) ∧
      (s.err ≠ .ok → s.olen = 0)

/-- The state of a run that has gone right so far: every invariant holds. -/
def Good (s : State) : Prop := MemoryInv s ∧ SequencerInv s ∧ InstanceInv s ∧ OutputInv s

/-- What the host can learn of a state at one moment: the value of every location (20_memory R41, R54). -/
def SameView (s t : State) : Prop := ∀ a, hostRead s a = hostRead t a

end Sys2Proof.Safety
end

