-- ==== Sys2Proof/WellFormed.lean ====
section
/-! DEFINITION. Well-formedness. A command has no operand field (30_encoding R60, R73), so every value of `Instr` is
well-formed and its word is legal. What the hardware does have a check for is a host script (R70). -/

namespace Sys2Proof

/-- Every command is well-formed: it has no field that could hold a value its word does not admit (R60). The check is stated
on the word: bits 31:8 zero and `op` in 01 .. 05 (R60, R63). -/
def Instr.wf (i : Instr) : Bool :=
  zeroField (encode i) == 0 && decide (1 ≤ (opField (encode i)).toNat) && decide ((opField (encode i)).toNat ≤ 5)

/-- Whether a command word is legal (R63, R64): bits 31:8 zero and `op` in 01 .. 05. -/
def wordLegal (w : Word) : Bool :=
  zeroField w == 0 && decide (1 ≤ (opField w).toNat) && decide ((opField w).toNat ≤ 5)

/-- Whether an action may be made although no WAIT followed the last CMD write: `RD STATUS`, `RESET`, and WAIT, which is a
repeated `RD STATUS` (R69, R70). -/
def allowedWhileBusy : Machine.HostAction → Bool
  | .reset => true
  | .wait => true
  | .rd a => Machine.locate a == .status
  | .wr _ _ => false

/-- Whether the next action follows a WAIT or RESET with no CMD write in between, after this action (R70). -/
def settledAfter (settled : Bool) : Machine.HostAction → Bool
  | .reset => true
  | .wait => true
  | .rd _ => settled
  | .wr a _ => settled && !(Machine.locate a == .cmd)

/-- A host script is well-formed when every action that is not `RD STATUS` or `RESET` follows a WAIT (or a RESET) with no CMD
write in between (R70). `settled` says whether such a WAIT or RESET has been seen. -/
def scriptWf : Bool → List Machine.HostAction → Bool
  | _, [] => true
  | settled, x :: xs => (settled || allowedWhileBusy x) && scriptWf (settledAfter settled x) xs

end Sys2Proof
end

