-- ==== Sys2Proof/Certificates/Slice0/Obligations.lean ====
section
/-! DEFINITION. The statements for the provers, each with the rule of the spec it formalises. -/

open Sys2Proof Sys2Proof.Machine Sys2Proof.Safety

/- Encoding -/

/-- 30_encoding R74, R62: the decoder and the command words agree in both directions, for all 2^32 words. -/
def Obligations.DecodeAgreesWithEncode : Prop :=
  ∀ (w : Word) (i : Instr), decode w = .ok i ↔ w = encode i

/-- 30_encoding R63: the opcode map, for every word with bits 31:8 zero; any other word is refused by its upper bits (R64). -/
def Obligations.OpcodeMapByOp : Prop :=
  ∀ w : Word,
    (zeroField w ≠ 0 → decode w = .error .upperBitsSet) ∧
    (zeroField w = 0 →
      decode w =
        if opField w = 0x01 then .ok .init
        else if opField w = 0x02 then .ok .encblk
        else if opField w = 0x03 then .ok .decblk
        else if opField w = 0x04 then .ok .cbcenc
        else if opField w = 0x05 then .ok .cbcdec
        else .error .reservedOp)

/-- 30_encoding R62, R64: words written out from the spec's table and its examples of illegal words. -/
def Obligations.SampleWordsDecode : Prop :=
  decode 0b00000000000000000000000000000001#32 = .ok .init ∧
  decode 0b00000000000000000000000000000010#32 = .ok .encblk ∧
  decode 0b00000000000000000000000000000011#32 = .ok .decblk ∧
  decode 0b00000000000000000000000000000100#32 = .ok .cbcenc ∧
  decode 0b00000000000000000000000000000101#32 = .ok .cbcdec ∧
  decode 0x00000000#32 = .error .reservedOp ∧
  decode 0x00000006#32 = .error .reservedOp ∧
  decode 0x00000101#32 = .error .upperBitsSet ∧
  decode 0x00000104#32 = .error .upperBitsSet

/-- 30_encoding R64: every word but the five is illegal, and writing it to CMD has the common error effect with
InvalidCommand (code 7) at once and changes nothing else, the hidden words included. -/
def Obligations.IllegalWordEndsAtOnce : Prop :=
  ErrorKind.invalidCommand.code = 7 ∧
  (∀ w : Word, wordLegal w = true ↔ ∃ i, w = encode i) ∧
  ∀ (s : State) (w : Word), s.busy = false → wordLegal w = false →
    ∃ t, hostWrite s (addr .cmd) w = .next t ∧ ErrorEffect .invalidCommand s t ∧
      KeyWordsUnchanged s t ∧ HalvesUnchanged s t ∧ t.chain = s.chain

/- The step -/

/-- 30_encoding R61, 20_memory R54, 70_reset R184 e: at the command-atomic level the step that takes a write of a legal word to
CMD is the execution of that command; at the finer level the step of a busy core's last time unit, with no host action pending,
is the execution of the command in progress. -/
def Obligations.StepRunsDecodedCommand : Prop :=
  (∀ (s : State) (a w : Word) (rest : List HostAction) (i : Instr),
    s.busy = false → s.grain = .command → s.script = .wr a w :: rest → locate a = .cmd → decode w = .ok i →
      step s = exec i { s with script := rest }) ∧
  ∀ (s : State) (i : Instr), s.busy = true → s.script = [] → s.left ≤ 1 → decode s.cmd = .ok i → step s = exec i s

/-- 10_state R27, R33, 70_reset R184, R190: at the finer level a legal word is accepted: BUSY rises for at least one time
unit, PHASE leaves IDLE, and nothing but the hidden words changes beside. -/
def Obligations.TimedCommandIsAccepted : Prop :=
  ∀ (s : State) (a w : Word) (rest : List HostAction) (i : Instr),
    s.busy = false → s.grain = .timed → s.script = .wr a w :: rest → locate a = .cmd → decode w = .ok i →
      ∃ t, step s = .next t ∧ t.busy = true ∧ t.cmd = w ∧ 1 ≤ t.left ∧ t.left = latency i { s with script := rest } ∧
        t.seq = ⟨phaseOf i, 0, 0⟩ ∧ t.script = rest ∧ t.rdata = s.rdata ∧ t.grain = .timed ∧
        StagingUnchanged s t ∧ InstanceUnchanged s t ∧ ResultUnchanged s t

/-- 70_reset R196, R191: every step in every state has exactly one outcome and it is a next state. -/
def Obligations.EveryStepAnswersNext : Prop :=
  (∀ s : State, ∃ t, step s = .next t) ∧ ∀ (i : Instr) (s : State), ∃ t, exec i s = .next t

/- The port -/

/-- 20_memory R43: a byte location reads zero-extended; a write stores bits 7:0 and ignores bits 31:8, and changes no other
location. OBUF is read-only (R44). -/
def Obligations.ByteLocationsHoldBytes : Prop :=
  ∀ s : State, s.busy = false → s.mem.wf → ∀ a : Word, isByteAddr a.toNat = true →
    (hostRead s a = (s.mem.read a.toNat).setWidth 32) ∧
    (inObuf a.toNat = false → ∀ v : Word, ∃ t, hostWrite s a v = .next t ∧
      t.mem.read a.toNat = v.extractLsb' 0 8 ∧ hostRead t a = (v.extractLsb' 0 8).setWidth 32 ∧
      ∀ b : Word, b ≠ a → hostRead t b = hostRead s b)

/-- 20_memory R44: a read of an unmapped address returns 00000000 and changes nothing; a write to an unmapped or read-only
location changes nothing. And no read of any location, in any state, changes anything but the value returned (R51). -/
def Obligations.ProtectedLocationsIgnoreWrites : Prop :=
  (∀ (s : State) (a : Word), locate a = .unmapped → act (.rd a) s = .next { s with rdata := 0 }) ∧
  (∀ (s : State) (a : Word), act (.rd a) s = .next { s with rdata := hostRead s a }) ∧
  ∀ (s : State) (a v : Word),
    (locate a = .unmapped ∨ locate a = .status ∨ locate a = .olen ∨ (∃ i, locate a = .rk i) ∨ ∃ i, locate a = .obuf i) →
      hostWrite s a v = .next s

/-- 20_memory R42: the regions of the address map; every other address is unmapped. -/
def Obligations.AddressMapRegions : Prop :=
  (locate 0 = .cmd ∧ locate 1 = .status ∧ locate 2 = .klen ∧ locate 3 = .ivlen ∧ locate 4 = .ilen ∧ locate 5 = .olen) ∧
  ∀ a : Word,
    (∀ i, i < 16 → a.toNat = 0x10 + i → locate a = .keybuf i) ∧
    (∀ i, i < 16 → a.toNat = 0x20 + i → locate a = .ivbuf i) ∧
    (∀ i, i < 32 → a.toNat = 0x40 + i → locate a = .rk i) ∧
    (∀ i, i < Config.bufBytes → a.toNat = 0x10000 + i → locate a = .ibuf i) ∧
    (∀ i, i < Config.bufBytes → a.toNat = 0x20000 + i → locate a = .obuf i) ∧
    (locate a = .unmapped ↔
      5 < a.toNat ∧ ¬(0x10 ≤ a.toNat ∧ a.toNat < 0x30) ∧ ¬(0x40 ≤ a.toNat ∧ a.toNat < 0x60) ∧
        ¬(0x10000 ≤ a.toNat ∧ a.toNat < 0x10000 + Config.bufBytes) ∧
        ¬(0x20000 ≤ a.toNat ∧ a.toNat < 0x20000 + Config.bufBytes))

/-- 10_state R15, R17, R23: KLEN, IVLEN and ILEN store any 32-bit value the host writes and read it back. R20, R25, R30,
20_memory R48: RK[i] reads as the word the cipher uses, OLEN as it stands, and CMD as 0. -/
def Obligations.LengthRegistersReadBack : Prop :=
  ∀ (s : State) (v : Word), s.busy = false →
    hostWrite s (addr .klen) v = .next { s with klen := v } ∧ hostRead { s with klen := v } (addr .klen) = v ∧
    hostWrite s (addr .ivlen) v = .next { s with ivlen := v } ∧ hostRead { s with ivlen := v } (addr .ivlen) = v ∧
    hostWrite s (addr .ilen) v = .next { s with ilen := v } ∧ hostRead { s with ilen := v } (addr .ilen) = v ∧
    (∀ a i, locate a = .rk i → i < 32 ∧ hostRead s a = rkAt s.rk i) ∧
    (∀ i, i < 16 → (hostRead s (addr (.rk (2 * i))), hostRead s (addr (.rk (2 * i + 1)))) = roundKeyPair s.rk i) ∧
    hostRead s (addr .olen) = s.olen ∧ hostRead s (addr .cmd) = 0

/-- 30_encoding R67: the STATUS layout, 0 after reset, 2 after a successful command, 2 + 16e or 16e after a failed one. -/
def Obligations.StatusLayout : Prop :=
  (∀ s : State, (statusWord s).toNat =
    (if s.busy then 1 else 0) + (if s.keyed then 2 else 0) + 16 * s.err.code.toNat) ∧
  hostRead State.reset (addr .status) = 0 ∧
  (∀ (i : Instr) (s t : State), exec i s = .next t →
    (t.err = .ok → hostRead t (addr .status) = 2) ∧
    (t.err ≠ .ok → (hostRead t (addr .status)).toNat = (if s.keyed then 2 else 0) + 16 * t.err.code.toNat)) ∧
  ∀ (s t : State) (w : Word), s.busy = false → wordLegal w = false → hostWrite s (addr .cmd) w = .next t →
    (hostRead t (addr .status)).toNat = (if s.keyed then 2 else 0) + 16 * 7

/-- 60_exceptions R173, 10_state R18, R19, R32, R33: KEY, IV and the hidden state have no read path. -/
def Obligations.HiddenStateHasNoReadPath : Prop :=
  ∀ (s t : State), s.mem = t.mem → s.klen = t.klen → s.ivlen = t.ivlen → s.ilen = t.ilen → s.olen = t.olen →
    s.rk = t.rk → s.busy = t.busy → s.keyed = t.keyed → s.err = t.err → SameView s t

/-- 10_state R14, 70_reset R188, R189: a host write other than to CMD changes neither the instance nor the last result, nor
any hidden word. -/
def Obligations.HostWritesLeaveInstanceAndResult : Prop :=
  ∀ (s t : State) (a v : Word), hostWrite s a v = .next t → locate a ≠ .cmd →
    InstanceUnchanged s t ∧ ResultUnchanged s t ∧ KeyWordsUnchanged s t ∧ HalvesUnchanged s t ∧ t.chain = s.chain ∧
      HostUnchanged s t

/- Reset -/

/-- 70_reset R180: RESET gives every state element its reset value, in any state, and every location then reads zero. -/
def Obligations.ResetZeroesEverything : Prop :=
  ∀ s : State, ∃ t, act .reset s = .next t ∧ (∀ a, hostRead t a = 0) ∧ (∀ n, t.mem.read n = 0) ∧
    t.klen = 0 ∧ t.ivlen = 0 ∧ t.ilen = 0 ∧ t.olen = 0 ∧ t.key = 0 ∧ t.iv = 0 ∧ (∀ i, rkAt t.rk i = 0) ∧
    t.busy = false ∧ t.keyed = false ∧ t.err = .ok ∧
    t.l0 = 0 ∧ t.l1 = 0 ∧ t.r0 = 0 ∧ t.r1 = 0 ∧ t.a = 0 ∧ t.b = 0 ∧ t.c = 0 ∧ t.d = 0 ∧ t.chain = 0 ∧
    t.seq = ⟨.idle, 0, 0⟩

/-- The state right after reset meets every invariant of the machine. -/
def Obligations.ResetStateIsGood : Prop := Good State.reset

/- Tables, G and F -/

/-- 40_constant_tables R83, R87: the tables of R81 and R82 are what the generating rule gives, at all 256 indices, and
KC[i] = rotl32(9E3779B9, i); and the worked check of the rule. -/
def Obligations.TablesObeyTheirLaws : Prop :=
  (gfPow 0x02 247 = 0x1B ∧ matMul matA1 0x1B = 0x7F ∧ (0x7F ^^^ 0xA9 : Byte) = 0xD6 ∧ tables.s1 0x02 = 0xD6) ∧
  (∀ x : Byte, tables.s1 x = generatedS1 x ∧ tables.s2 x = generatedS2 x) ∧
  ∀ i, i < 16 → tables.kc i = (0x9E3779B9 : Word).rotateLeft i

/-- 41_round_function R92: the table form of G equals the reference form for every word, for any tables; and its example. -/
def Obligations.TableFormOfG : Prop :=
  (∀ (T : Tables) (x : Word), g T x = gTable T x) ∧ gTable tables 0 = 0xB829B829

/-- 95_test_vectors section 3: swapping the two halves of a word rotates G of it by 16 bits, for any tables. -/
def Obligations.SwappedHalvesRotateG : Prop :=
  ∀ (T : Tables) (x : Word), g T (x.rotateLeft 16) = (g T x).rotateLeft 16

/-- 41_round_function R96 a to c: F sees a data word and its key word only through their XOR; equal mixed words give
U = 0; the additions wrap. -/
def Obligations.CornerCasesOfF : Prop :=
  (∀ (T : Tables) (c d k0 k1 : Word), f T c d k0 k1 = f T (c ^^^ k0) (d ^^^ k1) 0 0) ∧
  (∀ (T : Tables) (c d k0 k1 : Word), c ^^^ k0 = d ^^^ k1 →
    (f T c d k0 k1).2 = g T (g T 0 + g T ((c ^^^ k0) + g T 0))) ∧
  f tables 0xFFFFFFFF 0x00000001 0xFFFFFFFF 0x00000001 = (0xAB30A730, 0xF456F057) ∧
  f tables 0xFFFFFFFF 0xFFFFFFFF 0 0 = (0xB4F0C1C6, 0x255FFA25)

/- Key schedule -/

/-- 42_key_schedule R101, 45_arithmetic R151: the rotations of the working words, written on words. -/
def Obligations.KeyRotationsOnWords : Prop :=
  ∀ w : KeyWords,
    rotateFirst w =
      ⟨w.b.extractLsb' 0 8 ++ w.a.extractLsb' 8 24, w.a.extractLsb' 0 8 ++ w.b.extractLsb' 8 24, w.c, w.d⟩ ∧
    rotateSecond w =
      ⟨w.a, w.b, w.c.extractLsb' 0 24 ++ w.d.extractLsb' 24 8, w.d.extractLsb' 0 24 ++ w.c.extractLsb' 24 8⟩

/-- 42_key_schedule R101: the 32 words of the schedule, from the working words at the start of each round. -/
def Obligations.ScheduleWords : Prop :=
  ∀ (T : Tables) (k : Block),
    keyWordsAt k 0 = ⟨k.word 0, k.word 1, k.word 2, k.word 3⟩ ∧
    ∀ i, i < 16 →
      rkAt (keySchedule T k) (2 * i) = g T ((keyWordsAt k i).a + (keyWordsAt k i).c - T.kc i) ∧
      rkAt (keySchedule T k) (2 * i + 1) = g T ((keyWordsAt k i).b - (keyWordsAt k i).d + T.kc i) ∧
      keyWordsAt k (i + 1) = if i % 2 = 0 then rotateFirst (keyWordsAt k i) else rotateSecond (keyWordsAt k i)

/-- 42_key_schedule R104 a: after the 16 rounds the working words are back to the key. -/
def Obligations.WorkingWordsReturnToTheKey : Prop :=
  ∀ k : Block, keyWordsAt k 16 = KeyWords.load k

/-- 42_key_schedule R106: INIT answers a next state: in an unkeyed core with both lengths 16, KEY, IV, RK and KEYED latched, no
output, and everything else but A, B, C, D unchanged; else the common error effect, by the first check that fails. -/
def Obligations.InitCompletesOrFails : Prop :=
  ∀ s : State,
    (s.keyed = false → s.klen = 16 → s.ivlen = 16 →
      ∃ t, exec .init s = .next t ∧ t.key = keyInput s ∧ t.iv = ivInput s ∧ t.rk = keySchedule tables t.key ∧
        t.keyed = true ∧ SuccessEffect [] s t ∧ HalvesUnchanged s t ∧ t.chain = s.chain) ∧
    (s.keyed = true → ∃ t, exec .init s = .next t ∧ ErrorEffect .invalidState s t) ∧
    (s.keyed = false → s.klen ≠ 16 → ∃ t, exec .init s = .next t ∧ ErrorEffect .invalidKeyLength s t) ∧
    (s.keyed = false → s.klen = 16 → s.ivlen ≠ 16 → ∃ t, exec .init s = .next t ∧ ErrorEffect .invalidIVLength s t)

/-- 42_key_schedule R107, R108: a failed INIT evaluates nothing and latches nothing: the hidden words and the instance are as
before, and in an unkeyed core RK stays zero and INIT, with the registers corrected, then succeeds. -/
def Obligations.FailedInitLatchesNothing : Prop :=
  ∀ (s t : State), initCheck s ≠ .ok → exec .init s = .next t →
    ErrorEffect (initCheck s) s t ∧
    (s.keyed = true → initCheck s = .invalidState) ∧
    (s.keyed = false → s.klen ≠ 16 → initCheck s = .invalidKeyLength) ∧
    (s.keyed = false → s.klen = 16 → initCheck s = .invalidIVLength) ∧
    KeyWordsUnchanged s t ∧ HalvesUnchanged s t ∧ t.chain = s.chain ∧
    (s.keyed = false → s.busy = false → InstanceInv s → ∀ j, rkAt t.rk j = 0) ∧
    (s.keyed = false → ∃ u, exec .init { t with klen := 16, ivlen := 16 } = .next u ∧ u.keyed = true ∧
      u.key = keyInput s ∧ u.iv = ivInput s)

/- Block engine -/

/-- 20_memory R46: splitting 16 bytes big-endian into words and joining them again loses nothing, either way. -/
def Obligations.BlockByteOrder : Prop :=
  (∀ l : List Byte, l.length = 16 →
    (∀ k, k < 4 → (Block.ofBytes l).word k =
      be32 (l.getD (4 * k) 0) (l.getD (4 * k + 1) 0) (l.getD (4 * k + 2) 0) (l.getD (4 * k + 3) 0)) ∧
    (Block.ofBytes l).toBytes = l) ∧
  ∀ x : Block, Block.ofBytes x.toBytes = x ∧ x = Block.ofWords (x.word 0) (x.word 1) (x.word 2) (x.word 3)

/-- 43_block_core R118: the form without swap gives the same blocks, in both directions, for any tables and schedule. -/
def Obligations.UnswappedFormAgrees : Prop :=
  ∀ (T : Tables) (rk : Vector Word 32) (x : Block),
    encryptBlock T rk x = unswappedBlock T (roundKeyPairs rk) x ∧
    decryptBlock T rk x = unswappedBlock T (roundKeyPairs rk).reverse x

/-- 43_block_core R123: the block round trip, for any tables, any 32 words and any block. -/
def Obligations.BlockRoundTrip : Prop :=
  ∀ (T : Tables) (rk : Vector Word 32) (x : Block),
    decryptBlock T rk (encryptBlock T rk x) = x ∧ encryptBlock T rk (decryptBlock T rk x) = x

/-- 43_block_core R128, 95_test_vectors section 2: known-answer vectors B1 to B4. -/
def Obligations.KnownAnswerBlocks : Prop :=
  encryptBlock tables (keySchedule tables 0x00000000000000000000000000000000) 0x000102030405060708090A0B0C0D0E0F =
    0x5EBAC6E0054E166819AFF1CC6D346CDB ∧
  encryptBlock tables (keySchedule tables 0x000102030405060708090A0B0C0D0E0F) 0x00000000000000000000000000000000 =
    0xC11F22F20140505084483597E4370F43 ∧
  encryptBlock tables (keySchedule tables 0x4706480851E61BE85D74BFB3FD956185) 0x83A2F8A288641FB9A4E9A5CC2F131C7D =
    0xEE54D13EBCAE706D226BC3142CD40D4A ∧
  encryptBlock tables (keySchedule tables 0x28DBC3BC49FFD87DCFA509B11D422BE7) 0xB41E6BE2EBA84A148E2EED84593C5EC7 =
    0x9B9B7BFCD1813CB95D0B3618F40F5122

/-- 43_block_core R120: ENCBLK answers a next state: in a keyed core with ILEN = 16 the encryption of IBUF[0..15] in
OBUF[0..15], 00 beyond, OLEN = 16, and everything else but L0, L1, R0, R1 unchanged; else the common error effect. -/
def Obligations.EncblkCompletesOrFails : Prop :=
  ∀ s : State,
    (s.keyed = true → s.ilen = 16 →
      ∃ t, exec .encblk s = .next t ∧ t.olen = 16 ∧
        SuccessEffect (encryptBlock tables s.rk (blockInput s)).toBytes s t ∧
        InstanceUnchanged s t ∧ KeyWordsUnchanged s t ∧ t.chain = s.chain) ∧
    (s.keyed = false → ∃ t, exec .encblk s = .next t ∧ ErrorEffect .invalidState s t) ∧
    (s.keyed = true → s.ilen ≠ 16 → ∃ t, exec .encblk s = .next t ∧ ErrorEffect .invalidBlockSize s t)

/-- 43_block_core R121: DECBLK, as ENCBLK with DecryptBlock. -/
def Obligations.DecblkCompletesOrFails : Prop :=
  ∀ s : State,
    (s.keyed = true → s.ilen = 16 →
      ∃ t, exec .decblk s = .next t ∧ t.olen = 16 ∧
        SuccessEffect (decryptBlock tables s.rk (blockInput s)).toBytes s t ∧
        InstanceUnchanged s t ∧ KeyWordsUnchanged s t ∧ t.chain = s.chain) ∧
    (s.keyed = false → ∃ t, exec .decblk s = .next t ∧ ErrorEffect .invalidState s t) ∧
    (s.keyed = true → s.ilen ≠ 16 → ∃ t, exec .decblk s = .next t ∧ ErrorEffect .invalidBlockSize s t)

/- Padding and CBC -/

/-- 44_cbc_wrapper R131: Pad adds 1 to 16 bytes, each equal to their number, up to the next multiple of 16. -/
def Obligations.PadAddsItsLength : Prop :=
  ∀ p : List Byte, ∃ n : Nat, 1 ≤ n ∧ n ≤ 16 ∧ n = 16 - p.length % 16 ∧
    pad p = p ++ List.replicate n (BitVec.ofNat 8 n) ∧ (pad p).length = 16 * (p.length / 16 + 1)

/-- 44_cbc_wrapper R132: Unpad of a sequence whose length is a positive multiple of 16: which inputs fail, and what a valid one
gives. -/
def Obligations.UnpadValidates : Prop :=
  ∀ (q : List Byte) (n : Nat), q ≠ [] → q.length % 16 = 0 → n = (q.getD (q.length - 1) 0).toNat →
    ((n < 1 ∨ 16 < n ∨ ∃ j, 1 ≤ j ∧ j ≤ n ∧ (q.getD (q.length - j) 0).toNat ≠ n) → unpad q = .error .invalidPadding) ∧
    (1 ≤ n → n ≤ 16 → (∀ j, 1 ≤ j → j ≤ n → (q.getD (q.length - j) 0).toNat = n) →
      unpad q = .ok (q.take (q.length - n)))

/-- 44_cbc_wrapper R133: Unpad undoes Pad, and Pad undoes a successful Unpad. -/
def Obligations.UnpadUndoesPad : Prop :=
  (∀ p : List Byte, unpad (pad p) = .ok p) ∧
  ∀ q p : List Byte, q ≠ [] → q.length % 16 = 0 → unpad q = .ok p → pad p = q

/-- 44_cbc_wrapper R143: the CBC round trip for byte buffers of any length, any tables, any 32-word schedule and any IV. -/
def Obligations.CbcRoundTrip : Prop :=
  ∀ (T : Tables) (rk : Vector Word 32) (iv : Block) (p : List Byte),
    cbcDecrypt T rk iv (cbcEncrypt T rk iv p) = .ok p

/-- 44_cbc_wrapper R143, 70_reset R195: the round trip as a law of the two functions, and in the hardware, from any keyed state: CBCENC, the host's copy of
OBUF[0..OLEN-1] to IBUF and of OLEN to ILEN in a state with the same instance, then CBCDEC. -/
def Obligations.CbcRoundTripOnTheMachine : Prop :=
  Obligations.CbcRoundTrip ∧
  ∀ s t u : State, s.keyed = true → s.ilen.toNat ≤ Config.bufBytes - 1 → exec .cbcenc s = .next t →
    InstanceUnchanged s u → u.ilen = t.olen → (∀ i, i < t.olen.toNat → ibufByte u i = obufByte t i) →
      ∃ v, exec .cbcdec u = .next v ∧ v.err = .ok ∧ OutputIs v (bufferInput s)

/-- 44_cbc_wrapper R140 g, 90_conflicts C4: another IV at decryption changes the first decrypted block by the XOR of the two
IVs and no other block. -/
def Obligations.IvChangesOnlyTheFirstBlock : Prop :=
  ∀ (T : Tables) (rk : Vector Word 32) (iv e : Block) (cs : List Block),
    cbcDecryptBlocks T rk (xor16 iv e) cs =
      match cbcDecryptBlocks T rk iv cs with
      | [] => []
      | q :: qs => xor16 q e :: qs

/-- 10_state R26, 44_cbc_wrapper R145: the length laws. -/
def Obligations.OutputLengths : Prop :=
  ∀ (i : Instr) (s t : State), exec i s = .next t → t.err = .ok →
    ((i = .encblk ∨ i = .decblk) → t.olen = 16) ∧
    (i = .cbcenc → t.olen.toNat = 16 * (s.ilen.toNat / 16 + 1) ∧ s.ilen.toNat + 1 ≤ t.olen.toNat ∧
      t.olen.toNat ≤ s.ilen.toNat + 16 ∧ t.olen.toNat % 16 = 0) ∧
    (i = .cbcdec → ∃ n, 1 ≤ n ∧ n ≤ 16 ∧ t.olen.toNat + n = s.ilen.toNat)

/-- 44_cbc_wrapper R138: CBCENC answers a next state: in a keyed core with ILEN at most BUF_BYTES - 1 the encryption of
IBUF[0..ILEN-1] in OBUF, 00 beyond, and everything else but L0, L1, R0, R1, CHAIN unchanged; else the common error effect. -/
def Obligations.CbcencCompletesOrFails : Prop :=
  ∀ s : State,
    (s.keyed = true → s.ilen.toNat ≤ Config.bufBytes - 1 →
      ∃ t, exec .cbcenc s = .next t ∧ SuccessEffect (cbcEncrypt tables s.rk s.iv (bufferInput s)) s t ∧
        t.olen.toNat = 16 * (s.ilen.toNat / 16 + 1) ∧ InstanceUnchanged s t ∧ KeyWordsUnchanged s t) ∧
    (s.keyed = false → ∃ t, exec .cbcenc s = .next t ∧ ErrorEffect .invalidState s t) ∧
    (s.keyed = true → Config.bufBytes - 1 < s.ilen.toNat →
      ∃ t, exec .cbcenc s = .next t ∧ ErrorEffect .bufferCapacity s t)

/-- 44_cbc_wrapper R139: CBCDEC answers a next state: in a keyed core with ILEN a positive multiple of 16, at most BUF_BYTES,
the plaintext in OBUF, 00 beyond, if CbcDecrypt succeeds, else InvalidPadding; else the common error effect of the first check
that fails. -/
def Obligations.CbcdecCompletesOrFails : Prop :=
  ∀ s : State,
    (∀ y : List Byte, s.keyed = true → s.ilen.toNat ≤ Config.bufBytes → s.ilen.toNat ≠ 0 →
      s.ilen.toNat % 16 = 0 → cbcDecrypt tables s.rk s.iv (bufferInput s) = .ok y →
      ∃ t, exec .cbcdec s = .next t ∧ SuccessEffect y s t ∧ InstanceUnchanged s t ∧ KeyWordsUnchanged s t) ∧
    (∀ e : ErrorKind, s.keyed = true → s.ilen.toNat ≤ Config.bufBytes → s.ilen.toNat ≠ 0 →
      s.ilen.toNat % 16 = 0 → cbcDecrypt tables s.rk s.iv (bufferInput s) = .error e →
      ∃ t, exec .cbcdec s = .next t ∧ ErrorEffect .invalidPadding s t) ∧
    (s.keyed = false → ∃ t, exec .cbcdec s = .next t ∧ ErrorEffect .invalidState s t) ∧
    (s.keyed = true → Config.bufBytes < s.ilen.toNat →
      ∃ t, exec .cbcdec s = .next t ∧ ErrorEffect .bufferCapacity s t) ∧
    (s.keyed = true → s.ilen.toNat ≤ Config.bufBytes → (s.ilen.toNat = 0 ∨ s.ilen.toNat % 16 ≠ 0) →
      ∃ t, exec .cbcdec s = .next t ∧ ErrorEffect .invalidCiphertextLength s t)

/-- 44_cbc_wrapper R146: a decryption whose last byte is out of range, or whose trailing bytes are inconsistent, ends with
InvalidPadding and no output. -/
def Obligations.BadPaddingIsRejected : Prop :=
  ∀ (s : State) (q : List Byte) (n : Nat), s.keyed = true → s.ilen.toNat ≤ Config.bufBytes → s.ilen.toNat ≠ 0 →
    s.ilen.toNat % 16 = 0 → q = bytesOf (cbcDecryptBlocks tables s.rk s.iv (blocksOf (bufferInput s))) →
    n = (q.getD (q.length - 1) 0).toNat →
    (n < 1 ∨ 16 < n ∨ ∃ j, 1 ≤ j ∧ j ≤ n ∧ (q.getD (q.length - j) 0).toNat ≠ n) →
      ∃ t, exec .cbcdec s = .next t ∧ ErrorEffect .invalidPadding s t

/-- 44_cbc_wrapper R147: a ciphertext length that is no positive multiple of 16 ends with InvalidCiphertextLength without
attempting block processing, whatever IBUF and RK hold. -/
def Obligations.BadCiphertextLengthIsRejected : Prop :=
  ∀ s : State, s.keyed = true → s.ilen.toNat ≤ Config.bufBytes → (s.ilen.toNat = 0 ∨ s.ilen.toNat % 16 ≠ 0) →
    ∃ t, exec .cbcdec s = .next t ∧ ErrorEffect .invalidCiphertextLength s t ∧
      KeyWordsUnchanged s t ∧ HalvesUnchanged s t ∧ t.chain = s.chain

/-- 44_cbc_wrapper R144: the result of CBCENC and of CBCDEC is a function of (KEY, IV, IBUF[0..ILEN-1], ILEN) alone. -/
def Obligations.CbcResultsAreDeterminate : Prop :=
  ∀ (i : Instr) (s t s' t' : State), (i = .cbcenc ∨ i = .cbcdec) → InstanceInv s → InstanceInv s' →
    s.keyed = true → s'.keyed = true → s.key = s'.key → s.iv = s'.iv → s.ilen = s'.ilen →
    (∀ k, k < s.ilen.toNat → ibufByte s k = ibufByte s' k) → exec i s = .next t → exec i s' = .next t' →
      t.err = t'.err ∧ t.olen = t'.olen ∧ ∀ k, k < Config.bufBytes → obufByte t k = obufByte t' k

/- Errors -/

/-- 60_exceptions R157, R171: whatever command fails, in whatever state, has the common error effect and no other. -/
def Obligations.FailuresHaveTheCommonEffect : Prop :=
  ∀ (i : Instr) (s t : State), exec i s = .next t → t.err ≠ .ok → ErrorEffect t.err s t

/-- 60_exceptions R160, R162, R163: InvalidState exactly when the command is not legal in the lifecycle state; InvalidBlockSize
exactly from a keyed ENCBLK or DECBLK with ILEN != 16, so never inside CBCENC or CBCDEC; BufferCapacity exactly from a keyed CBCENC
with ILEN > BUF_BYTES - 1 or CBCDEC with ILEN > BUF_BYTES (the lifecycle check comes first, R167). -/
def Obligations.ErrorKindsExactly : Prop :=
  ∀ (i : Instr) (s t : State), exec i s = .next t →
    (t.err = .invalidState ↔ (i = .init ∧ s.keyed = true) ∨ (i ≠ .init ∧ s.keyed = false)) ∧
    (t.err = .invalidBlockSize ↔ (i = .encblk ∨ i = .decblk) ∧ s.keyed = true ∧ s.ilen ≠ 16) ∧
    (t.err = .bufferCapacity ↔
      s.keyed = true ∧ ((i = .cbcenc ∧ Config.bufBytes - 1 < s.ilen.toNat) ∨
        (i = .cbcdec ∧ Config.bufBytes < s.ilen.toNat)))

/-- 60_exceptions R167: one command reports the first check that fails, in the fixed order; InvalidPadding comes last. -/
def Obligations.ErrorPriority : Prop :=
  (∀ (s : State) (w : Word), s.busy = false → wordLegal w = false →
    ∃ t, hostWrite s (addr .cmd) w = .next t ∧ t.err = .invalidCommand) ∧
  ∀ (s t : State),
    (exec .init s = .next t → t.err =
      if s.keyed = true then .invalidState else if s.klen ≠ 16 then .invalidKeyLength
      else if s.ivlen ≠ 16 then .invalidIVLength else .ok) ∧
    (exec .encblk s = .next t ∨ exec .decblk s = .next t → t.err =
      if s.keyed = false then .invalidState else if s.ilen ≠ 16 then .invalidBlockSize else .ok) ∧
    (exec .cbcenc s = .next t → t.err =
      if s.keyed = false then .invalidState else if Config.bufBytes - 1 < s.ilen.toNat then .bufferCapacity else .ok) ∧
    (exec .cbcdec s = .next t → t.err =
      if s.keyed = false then .invalidState
      else if Config.bufBytes < s.ilen.toNat then .bufferCapacity
      else if s.ilen.toNat = 0 ∨ s.ilen.toNat % 16 ≠ 0 then .invalidCiphertextLength
      else
        match cbcDecrypt tables s.rk s.iv (bufferInput s) with
        | .ok _ => .ok
        | .error _ => .invalidPadding)

/-- 43_block_core R122, 44_cbc_wrapper R142, 92 D26: what every command leaves alone, on success and on failure. -/
def Obligations.CommandFrames : Prop :=
  ∀ (i : Instr) (s t : State), exec i s = .next t →
    StagingUnchanged s t ∧ HostUnchanged s t ∧ Idle t ∧
    (i ≠ .init → InstanceUnchanged s t ∧ KeyWordsUnchanged s t) ∧
    (i = .init → HalvesUnchanged s t) ∧
    (i = .init ∨ i = .encblk ∨ i = .decblk → t.chain = s.chain)

/- Below the command-atomic level -/

/-- 70_reset R184: behaviour while BUSY = 1: STATUS reads with BUSY set and KEYED, ERR as before; other reads give 0; writes are
ignored; nothing the sequencer does is observable; the end makes all writes and the fall of BUSY visible together. -/
def Obligations.BusyWindow : Prop :=
  ∀ s : State, s.busy = true →
    ((hostRead s (addr .status)).toNat = 1 + (if s.keyed then 2 else 0) + 16 * s.err.code.toNat) ∧
    (∀ a, locate a ≠ .status → hostRead s a = 0) ∧
    (∀ a v, hostWrite s a v = .next s) ∧
    (∀ n a, hostRead (advance n s) a = hostRead s a ∧ (advance n s).busy = true) ∧
    ∀ t, coreTurn s = .next t → (1 < s.left → t.busy = true ∧ SameView s t) ∧
      (s.left ≤ 1 → t.busy = false ∧ ∀ i, decode s.cmd = .ok i → exec i s = .next t)

/-- 70_reset R190: every command keeps BUSY set for at least one time unit, bounded by a constant for INIT, ENCBLK, DECBLK and
by a constant plus a constant per block for CBCENC, CBCDEC. -/
def Obligations.LatencyIsBounded : Prop :=
  ∃ k b : Nat, ∀ (i : Instr) (s : State), 1 ≤ latency i s ∧
    (i = .init ∨ i = .encblk ∨ i = .decblk → latency i s ≤ k) ∧
    (i = .cbcenc ∨ i = .cbcdec → latency i s ≤ k + b * (s.ilen.toNat / 16 + 1))

/-- 42_key_schedule R112: the sequencer's PHASE KS, one round per RND value, leaves the schedule of the key in RK. -/
def Obligations.SequencerExpandsTheKey : Prop :=
  ∀ (s : State) (w : Word), decode w = .ok .init → initCheck s = .ok →
    let u := ksRound (advance 15 (accept .init w s))
    u.rk = keySchedule tables (keyInput s) ∧ u.keyWords = keyWordsAt (keyInput s) 16

/-- 43_block_core R126: the sequencer's PHASE BLKOP, one round per RND value, leaves the result block in L0, L1, R0, R1. -/
def Obligations.SequencerRunsTheBlock : Prop :=
  ∀ (s : State) (w : Word), blockCheck s = .ok →
    (decode w = .ok .encblk → (blkRound .encblk (advance 15 (accept .encblk w s))).halves.toBlock =
      encryptBlock tables s.rk (blockInput s)) ∧
    (decode w = .ok .decblk → (blkRound .decblk (advance 15 (accept .decblk w s))).halves.toBlock =
      decryptBlock tables s.rk (blockInput s))

/-- 44_cbc_wrapper R149: the sequencer's PHASE CBC, BLK over the blocks and RND over the rounds of each, builds the chained
result in OBUF while IBUF is not written. That the blocks go to OBUF as they are made is the model's choice (log entry 22). -/
def Obligations.SequencerChainsTheBlocks : Prop :=
  ∀ (s : State) (w : Word), s.mem.wf →
    (decode w = .ok .cbcenc → cbcencCheck s = .ok →
      let u := cbcRound .cbcenc (advance (16 * blockCount .cbcenc s - 1) (accept .cbcenc w s))
      (∀ k, k < 16 * blockCount .cbcenc s →
        obufByte u k = (cbcEncrypt tables s.rk s.iv (bufferInput s)).getD k 0) ∧
      ∀ k, ibufByte u k = ibufByte s k ∨ Config.bufBytes ≤ k) ∧
    (decode w = .ok .cbcdec → cbcdecCheck s = .ok →
      let u := cbcRound .cbcdec (advance (16 * blockCount .cbcdec s - 1) (accept .cbcdec w s))
      (∀ k, k < 16 * blockCount .cbcdec s →
        obufByte u k = (bytesOf (cbcDecryptBlocks tables s.rk s.iv (blocksOf (bufferInput s)))).getD k 0) ∧
      ∀ k, ibufByte u k = ibufByte s k ∨ Config.bufBytes ≤ k)

/-- 70_reset R186 for one command: at the finer level, whatever LAT, a command followed by WAIT ends in exactly the state of
the command-atomic level. -/
def Obligations.TimedCommandAgrees : Prop :=
  ∀ (s t : State) (a w : Word) (rest : List HostAction) (i : Instr),
    s.busy = false → s.grain = .timed → s.script = .wr a w :: .wait :: rest → locate a = .cmd → decode w = .ok i →
    exec i { s with script := rest } = .next t →
      ∃ n, core.run n s = .next { t with rdata := statusWord t }

/-- 70_reset R186: on every well-formed host script the two levels end in the same state (but for the last value read, whose
BUSY, KEYED and ERR bits a STATUS read inside a busy window may show as they were). -/
def Obligations.LevelsAgreeOnWellFormedScripts : Prop :=
  ∀ s : State, s.busy = false → scriptWf false s.script = true →
    ∃ (n m : Nat) (t u : State),
      core.run n { s with grain := .timed } = .next t ∧ core.run m { s with grain := .command } = .next u ∧
      t.script = [] ∧ t.busy = false ∧ u.script = [] ∧ u.busy = false ∧
      t = { u with grain := .timed, rdata := t.rdata }

/- Invariants every step keeps -/

/-- 10_state R22, R24, R36 and log entry 9: every step keeps the byte locations canonical and within their windows. -/
def Obligations.StepKeepsMemoryCanonical : Prop :=
  ∀ s t : State, MemoryInv s → step s = .next t → MemoryInv t

/-- 10_state R33: every step keeps PHASE = IDLE iff BUSY = 0, RND in 0..15 and BLK within the buffer's blocks. -/
def Obligations.StepKeepsSequencerPosition : Prop :=
  ∀ s t : State, SequencerInv s → step s = .next t → SequencerInv t

/-- 10_state R20, R21: every step keeps RK the schedule of KEY in an instance, and KEY, IV, RK zero without one. -/
def Obligations.StepKeepsInstanceInvariant : Prop :=
  ∀ s t : State, InstanceInv s → step s = .next t → InstanceInv t

/-- 10_state R24, R25: every step keeps OLEN within BUF_BYTES, OBUF 00 from OLEN on, and no output beside an error. -/
def Obligations.StepKeepsOutputInvariant : Prop :=
  ∀ s t : State, OutputInv s → step s = .next t → OutputInv t

/-- 10_state R28, 70_reset R182: KEYED is set only by a successful INIT, which latches the staged key and IV, and cleared only
by RESET; between the two, no step changes KEY, IV or RK. The step that sets it is the one that runs INIT: the host's next
action writes INIT's word to CMD, or an INIT in progress is in its last time unit. -/
def Obligations.OnlyInitKeysOnlyResetUnkeys : Prop :=
  State.reset.keyed = false ∧ (∀ s, initCheck s = .ok → ∃ t, exec .init s = .next t ∧ t.keyed = true) ∧
  ∀ s t : State, step s = .next t →
    (s.keyed = true →
      InstanceUnchanged s t ∨
        ∃ rest, s.script = .reset :: rest ∧ t = { State.reset with script := rest, grain := s.grain }) ∧
    (s.keyed = false → t.keyed = true →
      ((s.busy = false ∧ ∃ a w rest, s.script = .wr a w :: rest ∧ locate a = .cmd ∧ decode w = .ok .init) ∨
        (s.busy = true ∧ s.left ≤ 1 ∧ decode s.cmd = .ok .init)) ∧
      exec .init { s with script := t.script, rdata := t.rdata } = .next t ∧
      initCheck s = .ok ∧ t.err = .ok ∧ t.key = keyInput s ∧ t.iv = ivInput s ∧
        t.rk = keySchedule tables (keyInput s))
end

