-- ==== Sys2Proof/Laws/State.lean ====
section
/-! SUPPORT. One lemma per field per update, all by rfl, so that no later proof unfolds a record update. -/

namespace Sys2Proof.Machine

@[simp] theorem State.setKeyWords_mem (s : State) (w : KeyWords) : (s.setKeyWords w).mem = s.mem := rfl
@[simp] theorem State.setKeyWords_klen (s : State) (w : KeyWords) : (s.setKeyWords w).klen = s.klen := rfl
@[simp] theorem State.setKeyWords_ivlen (s : State) (w : KeyWords) : (s.setKeyWords w).ivlen = s.ivlen := rfl
@[simp] theorem State.setKeyWords_ilen (s : State) (w : KeyWords) : (s.setKeyWords w).ilen = s.ilen := rfl
@[simp] theorem State.setKeyWords_olen (s : State) (w : KeyWords) : (s.setKeyWords w).olen = s.olen := rfl
@[simp] theorem State.setKeyWords_key (s : State) (w : KeyWords) : (s.setKeyWords w).key = s.key := rfl
@[simp] theorem State.setKeyWords_iv (s : State) (w : KeyWords) : (s.setKeyWords w).iv = s.iv := rfl
@[simp] theorem State.setKeyWords_rk (s : State) (w : KeyWords) : (s.setKeyWords w).rk = s.rk := rfl
@[simp] theorem State.setKeyWords_busy (s : State) (w : KeyWords) : (s.setKeyWords w).busy = s.busy := rfl
@[simp] theorem State.setKeyWords_keyed (s : State) (w : KeyWords) : (s.setKeyWords w).keyed = s.keyed := rfl
@[simp] theorem State.setKeyWords_err (s : State) (w : KeyWords) : (s.setKeyWords w).err = s.err := rfl
@[simp] theorem State.setKeyWords_l0 (s : State) (w : KeyWords) : (s.setKeyWords w).l0 = s.l0 := rfl
@[simp] theorem State.setKeyWords_l1 (s : State) (w : KeyWords) : (s.setKeyWords w).l1 = s.l1 := rfl
@[simp] theorem State.setKeyWords_r0 (s : State) (w : KeyWords) : (s.setKeyWords w).r0 = s.r0 := rfl
@[simp] theorem State.setKeyWords_r1 (s : State) (w : KeyWords) : (s.setKeyWords w).r1 = s.r1 := rfl
@[simp] theorem State.setKeyWords_a (s : State) (w : KeyWords) : (s.setKeyWords w).a = w.a := rfl
@[simp] theorem State.setKeyWords_b (s : State) (w : KeyWords) : (s.setKeyWords w).b = w.b := rfl
@[simp] theorem State.setKeyWords_c (s : State) (w : KeyWords) : (s.setKeyWords w).c = w.c := rfl
@[simp] theorem State.setKeyWords_d (s : State) (w : KeyWords) : (s.setKeyWords w).d = w.d := rfl
@[simp] theorem State.setKeyWords_chain (s : State) (w : KeyWords) : (s.setKeyWords w).chain = s.chain := rfl
@[simp] theorem State.setKeyWords_seq (s : State) (w : KeyWords) : (s.setKeyWords w).seq = s.seq := rfl
@[simp] theorem State.setKeyWords_cmd (s : State) (w : KeyWords) : (s.setKeyWords w).cmd = s.cmd := rfl
@[simp] theorem State.setKeyWords_left (s : State) (w : KeyWords) : (s.setKeyWords w).left = s.left := rfl
@[simp] theorem State.setKeyWords_grain (s : State) (w : KeyWords) : (s.setKeyWords w).grain = s.grain := rfl
@[simp] theorem State.setKeyWords_script (s : State) (w : KeyWords) : (s.setKeyWords w).script = s.script := rfl
@[simp] theorem State.setKeyWords_rdata (s : State) (w : KeyWords) : (s.setKeyWords w).rdata = s.rdata := rfl

@[simp] theorem State.setHalves_mem (s : State) (h : Halves) : (s.setHalves h).mem = s.mem := rfl
@[simp] theorem State.setHalves_klen (s : State) (h : Halves) : (s.setHalves h).klen = s.klen := rfl
@[simp] theorem State.setHalves_ivlen (s : State) (h : Halves) : (s.setHalves h).ivlen = s.ivlen := rfl
@[simp] theorem State.setHalves_ilen (s : State) (h : Halves) : (s.setHalves h).ilen = s.ilen := rfl
@[simp] theorem State.setHalves_olen (s : State) (h : Halves) : (s.setHalves h).olen = s.olen := rfl
@[simp] theorem State.setHalves_key (s : State) (h : Halves) : (s.setHalves h).key = s.key := rfl
@[simp] theorem State.setHalves_iv (s : State) (h : Halves) : (s.setHalves h).iv = s.iv := rfl
@[simp] theorem State.setHalves_rk (s : State) (h : Halves) : (s.setHalves h).rk = s.rk := rfl
@[simp] theorem State.setHalves_busy (s : State) (h : Halves) : (s.setHalves h).busy = s.busy := rfl
@[simp] theorem State.setHalves_keyed (s : State) (h : Halves) : (s.setHalves h).keyed = s.keyed := rfl
@[simp] theorem State.setHalves_err (s : State) (h : Halves) : (s.setHalves h).err = s.err := rfl
@[simp] theorem State.setHalves_l0 (s : State) (h : Halves) : (s.setHalves h).l0 = h.l0 := rfl
@[simp] theorem State.setHalves_l1 (s : State) (h : Halves) : (s.setHalves h).l1 = h.l1 := rfl
@[simp] theorem State.setHalves_r0 (s : State) (h : Halves) : (s.setHalves h).r0 = h.r0 := rfl
@[simp] theorem State.setHalves_r1 (s : State) (h : Halves) : (s.setHalves h).r1 = h.r1 := rfl
@[simp] theorem State.setHalves_a (s : State) (h : Halves) : (s.setHalves h).a = s.a := rfl
@[simp] theorem State.setHalves_b (s : State) (h : Halves) : (s.setHalves h).b = s.b := rfl
@[simp] theorem State.setHalves_c (s : State) (h : Halves) : (s.setHalves h).c = s.c := rfl
@[simp] theorem State.setHalves_d (s : State) (h : Halves) : (s.setHalves h).d = s.d := rfl
@[simp] theorem State.setHalves_chain (s : State) (h : Halves) : (s.setHalves h).chain = s.chain := rfl
@[simp] theorem State.setHalves_seq (s : State) (h : Halves) : (s.setHalves h).seq = s.seq := rfl
@[simp] theorem State.setHalves_cmd (s : State) (h : Halves) : (s.setHalves h).cmd = s.cmd := rfl
@[simp] theorem State.setHalves_left (s : State) (h : Halves) : (s.setHalves h).left = s.left := rfl
@[simp] theorem State.setHalves_grain (s : State) (h : Halves) : (s.setHalves h).grain = s.grain := rfl
@[simp] theorem State.setHalves_script (s : State) (h : Halves) : (s.setHalves h).script = s.script := rfl
@[simp] theorem State.setHalves_rdata (s : State) (h : Halves) : (s.setHalves h).rdata = s.rdata := rfl

@[simp] theorem complete_mem (e : ErrorKind) (out : List Byte) (s : State) : (complete e out s).mem = s.mem.setObuf out := rfl
@[simp] theorem complete_klen (e : ErrorKind) (out : List Byte) (s : State) : (complete e out s).klen = s.klen := rfl
@[simp] theorem complete_ivlen (e : ErrorKind) (out : List Byte) (s : State) : (complete e out s).ivlen = s.ivlen := rfl
@[simp] theorem complete_ilen (e : ErrorKind) (out : List Byte) (s : State) : (complete e out s).ilen = s.ilen := rfl
@[simp] theorem complete_olen (e : ErrorKind) (out : List Byte) (s : State) : (complete e out s).olen = BitVec.ofNat 32 out.length := rfl
@[simp] theorem complete_key (e : ErrorKind) (out : List Byte) (s : State) : (complete e out s).key = s.key := rfl
@[simp] theorem complete_iv (e : ErrorKind) (out : List Byte) (s : State) : (complete e out s).iv = s.iv := rfl
@[simp] theorem complete_rk (e : ErrorKind) (out : List Byte) (s : State) : (complete e out s).rk = s.rk := rfl
@[simp] theorem complete_busy (e : ErrorKind) (out : List Byte) (s : State) : (complete e out s).busy = false := rfl
@[simp] theorem complete_keyed (e : ErrorKind) (out : List Byte) (s : State) : (complete e out s).keyed = s.keyed := rfl
@[simp] theorem complete_err (e : ErrorKind) (out : List Byte) (s : State) : (complete e out s).err = e := rfl
@[simp] theorem complete_l0 (e : ErrorKind) (out : List Byte) (s : State) : (complete e out s).l0 = s.l0 := rfl
@[simp] theorem complete_l1 (e : ErrorKind) (out : List Byte) (s : State) : (complete e out s).l1 = s.l1 := rfl
@[simp] theorem complete_r0 (e : ErrorKind) (out : List Byte) (s : State) : (complete e out s).r0 = s.r0 := rfl
@[simp] theorem complete_r1 (e : ErrorKind) (out : List Byte) (s : State) : (complete e out s).r1 = s.r1 := rfl
@[simp] theorem complete_a (e : ErrorKind) (out : List Byte) (s : State) : (complete e out s).a = s.a := rfl
@[simp] theorem complete_b (e : ErrorKind) (out : List Byte) (s : State) : (complete e out s).b = s.b := rfl
@[simp] theorem complete_c (e : ErrorKind) (out : List Byte) (s : State) : (complete e out s).c = s.c := rfl
@[simp] theorem complete_d (e : ErrorKind) (out : List Byte) (s : State) : (complete e out s).d = s.d := rfl
@[simp] theorem complete_chain (e : ErrorKind) (out : List Byte) (s : State) : (complete e out s).chain = s.chain := rfl
@[simp] theorem complete_seq (e : ErrorKind) (out : List Byte) (s : State) : (complete e out s).seq = Seq.start := rfl
@[simp] theorem complete_cmd (e : ErrorKind) (out : List Byte) (s : State) : (complete e out s).cmd = 0 := rfl
@[simp] theorem complete_left (e : ErrorKind) (out : List Byte) (s : State) : (complete e out s).left = 0 := rfl
@[simp] theorem complete_grain (e : ErrorKind) (out : List Byte) (s : State) : (complete e out s).grain = s.grain := rfl
@[simp] theorem complete_script (e : ErrorKind) (out : List Byte) (s : State) : (complete e out s).script = s.script := rfl
@[simp] theorem complete_rdata (e : ErrorKind) (out : List Byte) (s : State) : (complete e out s).rdata = s.rdata := rfl

@[simp] theorem latchInstance_mem (s : State) : (latchInstance s).mem = s.mem := rfl
@[simp] theorem latchInstance_klen (s : State) : (latchInstance s).klen = s.klen := rfl
@[simp] theorem latchInstance_ivlen (s : State) : (latchInstance s).ivlen = s.ivlen := rfl
@[simp] theorem latchInstance_ilen (s : State) : (latchInstance s).ilen = s.ilen := rfl
@[simp] theorem latchInstance_olen (s : State) : (latchInstance s).olen = s.olen := rfl
@[simp] theorem latchInstance_key (s : State) : (latchInstance s).key = keyInput s := rfl
@[simp] theorem latchInstance_iv (s : State) : (latchInstance s).iv = ivInput s := rfl
@[simp] theorem latchInstance_rk (s : State) : (latchInstance s).rk = keySchedule tables (keyInput s) := rfl
@[simp] theorem latchInstance_busy (s : State) : (latchInstance s).busy = s.busy := rfl
@[simp] theorem latchInstance_keyed (s : State) : (latchInstance s).keyed = true := rfl
@[simp] theorem latchInstance_err (s : State) : (latchInstance s).err = s.err := rfl
@[simp] theorem latchInstance_l0 (s : State) : (latchInstance s).l0 = s.l0 := rfl
@[simp] theorem latchInstance_l1 (s : State) : (latchInstance s).l1 = s.l1 := rfl
@[simp] theorem latchInstance_r0 (s : State) : (latchInstance s).r0 = s.r0 := rfl
@[simp] theorem latchInstance_r1 (s : State) : (latchInstance s).r1 = s.r1 := rfl
@[simp] theorem latchInstance_a (s : State) : (latchInstance s).a = (keyWordsAt (keyInput s) 16).a := rfl
@[simp] theorem latchInstance_b (s : State) : (latchInstance s).b = (keyWordsAt (keyInput s) 16).b := rfl
@[simp] theorem latchInstance_c (s : State) : (latchInstance s).c = (keyWordsAt (keyInput s) 16).c := rfl
@[simp] theorem latchInstance_d (s : State) : (latchInstance s).d = (keyWordsAt (keyInput s) 16).d := rfl
@[simp] theorem latchInstance_chain (s : State) : (latchInstance s).chain = s.chain := rfl
@[simp] theorem latchInstance_seq (s : State) : (latchInstance s).seq = s.seq := rfl
@[simp] theorem latchInstance_cmd (s : State) : (latchInstance s).cmd = s.cmd := rfl
@[simp] theorem latchInstance_left (s : State) : (latchInstance s).left = s.left := rfl
@[simp] theorem latchInstance_grain (s : State) : (latchInstance s).grain = s.grain := rfl
@[simp] theorem latchInstance_script (s : State) : (latchInstance s).script = s.script := rfl
@[simp] theorem latchInstance_rdata (s : State) : (latchInstance s).rdata = s.rdata := rfl

@[simp] theorem afterCbcEncrypt_mem (y : List Byte) (s : State) : (afterCbcEncrypt y s).mem = s.mem := rfl
@[simp] theorem afterCbcEncrypt_klen (y : List Byte) (s : State) : (afterCbcEncrypt y s).klen = s.klen := rfl
@[simp] theorem afterCbcEncrypt_ivlen (y : List Byte) (s : State) : (afterCbcEncrypt y s).ivlen = s.ivlen := rfl
@[simp] theorem afterCbcEncrypt_ilen (y : List Byte) (s : State) : (afterCbcEncrypt y s).ilen = s.ilen := rfl
@[simp] theorem afterCbcEncrypt_olen (y : List Byte) (s : State) : (afterCbcEncrypt y s).olen = s.olen := rfl
@[simp] theorem afterCbcEncrypt_key (y : List Byte) (s : State) : (afterCbcEncrypt y s).key = s.key := rfl
@[simp] theorem afterCbcEncrypt_iv (y : List Byte) (s : State) : (afterCbcEncrypt y s).iv = s.iv := rfl
@[simp] theorem afterCbcEncrypt_rk (y : List Byte) (s : State) : (afterCbcEncrypt y s).rk = s.rk := rfl
@[simp] theorem afterCbcEncrypt_busy (y : List Byte) (s : State) : (afterCbcEncrypt y s).busy = s.busy := rfl
@[simp] theorem afterCbcEncrypt_keyed (y : List Byte) (s : State) : (afterCbcEncrypt y s).keyed = s.keyed := rfl
@[simp] theorem afterCbcEncrypt_err (y : List Byte) (s : State) : (afterCbcEncrypt y s).err = s.err := rfl
@[simp] theorem afterCbcEncrypt_l0 (y : List Byte) (s : State) : (afterCbcEncrypt y s).l0 = (Halves.load (lastBlock y)).l0 := rfl
@[simp] theorem afterCbcEncrypt_l1 (y : List Byte) (s : State) : (afterCbcEncrypt y s).l1 = (Halves.load (lastBlock y)).l1 := rfl
@[simp] theorem afterCbcEncrypt_r0 (y : List Byte) (s : State) : (afterCbcEncrypt y s).r0 = (Halves.load (lastBlock y)).r0 := rfl
@[simp] theorem afterCbcEncrypt_r1 (y : List Byte) (s : State) : (afterCbcEncrypt y s).r1 = (Halves.load (lastBlock y)).r1 := rfl
@[simp] theorem afterCbcEncrypt_a (y : List Byte) (s : State) : (afterCbcEncrypt y s).a = s.a := rfl
@[simp] theorem afterCbcEncrypt_b (y : List Byte) (s : State) : (afterCbcEncrypt y s).b = s.b := rfl
@[simp] theorem afterCbcEncrypt_c (y : List Byte) (s : State) : (afterCbcEncrypt y s).c = s.c := rfl
@[simp] theorem afterCbcEncrypt_d (y : List Byte) (s : State) : (afterCbcEncrypt y s).d = s.d := rfl
@[simp] theorem afterCbcEncrypt_chain (y : List Byte) (s : State) : (afterCbcEncrypt y s).chain = lastBlock y := rfl
@[simp] theorem afterCbcEncrypt_seq (y : List Byte) (s : State) : (afterCbcEncrypt y s).seq = s.seq := rfl
@[simp] theorem afterCbcEncrypt_cmd (y : List Byte) (s : State) : (afterCbcEncrypt y s).cmd = s.cmd := rfl
@[simp] theorem afterCbcEncrypt_left (y : List Byte) (s : State) : (afterCbcEncrypt y s).left = s.left := rfl
@[simp] theorem afterCbcEncrypt_grain (y : List Byte) (s : State) : (afterCbcEncrypt y s).grain = s.grain := rfl
@[simp] theorem afterCbcEncrypt_script (y : List Byte) (s : State) : (afterCbcEncrypt y s).script = s.script := rfl
@[simp] theorem afterCbcEncrypt_rdata (y : List Byte) (s : State) : (afterCbcEncrypt y s).rdata = s.rdata := rfl

@[simp] theorem afterCbcDecrypt_mem (cx : List Byte) (s : State) : (afterCbcDecrypt cx s).mem = s.mem := rfl
@[simp] theorem afterCbcDecrypt_klen (cx : List Byte) (s : State) : (afterCbcDecrypt cx s).klen = s.klen := rfl
@[simp] theorem afterCbcDecrypt_ivlen (cx : List Byte) (s : State) : (afterCbcDecrypt cx s).ivlen = s.ivlen := rfl
@[simp] theorem afterCbcDecrypt_ilen (cx : List Byte) (s : State) : (afterCbcDecrypt cx s).ilen = s.ilen := rfl
@[simp] theorem afterCbcDecrypt_olen (cx : List Byte) (s : State) : (afterCbcDecrypt cx s).olen = s.olen := rfl
@[simp] theorem afterCbcDecrypt_key (cx : List Byte) (s : State) : (afterCbcDecrypt cx s).key = s.key := rfl
@[simp] theorem afterCbcDecrypt_iv (cx : List Byte) (s : State) : (afterCbcDecrypt cx s).iv = s.iv := rfl
@[simp] theorem afterCbcDecrypt_rk (cx : List Byte) (s : State) : (afterCbcDecrypt cx s).rk = s.rk := rfl
@[simp] theorem afterCbcDecrypt_busy (cx : List Byte) (s : State) : (afterCbcDecrypt cx s).busy = s.busy := rfl
@[simp] theorem afterCbcDecrypt_keyed (cx : List Byte) (s : State) : (afterCbcDecrypt cx s).keyed = s.keyed := rfl
@[simp] theorem afterCbcDecrypt_err (cx : List Byte) (s : State) : (afterCbcDecrypt cx s).err = s.err := rfl
@[simp] theorem afterCbcDecrypt_l0 (cx : List Byte) (s : State) : (afterCbcDecrypt cx s).l0 = (Halves.load (decryptBlock tables s.rk (lastBlock cx))).l0 := rfl
@[simp] theorem afterCbcDecrypt_l1 (cx : List Byte) (s : State) : (afterCbcDecrypt cx s).l1 = (Halves.load (decryptBlock tables s.rk (lastBlock cx))).l1 := rfl
@[simp] theorem afterCbcDecrypt_r0 (cx : List Byte) (s : State) : (afterCbcDecrypt cx s).r0 = (Halves.load (decryptBlock tables s.rk (lastBlock cx))).r0 := rfl
@[simp] theorem afterCbcDecrypt_r1 (cx : List Byte) (s : State) : (afterCbcDecrypt cx s).r1 = (Halves.load (decryptBlock tables s.rk (lastBlock cx))).r1 := rfl
@[simp] theorem afterCbcDecrypt_a (cx : List Byte) (s : State) : (afterCbcDecrypt cx s).a = s.a := rfl
@[simp] theorem afterCbcDecrypt_b (cx : List Byte) (s : State) : (afterCbcDecrypt cx s).b = s.b := rfl
@[simp] theorem afterCbcDecrypt_c (cx : List Byte) (s : State) : (afterCbcDecrypt cx s).c = s.c := rfl
@[simp] theorem afterCbcDecrypt_d (cx : List Byte) (s : State) : (afterCbcDecrypt cx s).d = s.d := rfl
@[simp] theorem afterCbcDecrypt_chain (cx : List Byte) (s : State) : (afterCbcDecrypt cx s).chain = lastBlock cx := rfl
@[simp] theorem afterCbcDecrypt_seq (cx : List Byte) (s : State) : (afterCbcDecrypt cx s).seq = s.seq := rfl
@[simp] theorem afterCbcDecrypt_cmd (cx : List Byte) (s : State) : (afterCbcDecrypt cx s).cmd = s.cmd := rfl
@[simp] theorem afterCbcDecrypt_left (cx : List Byte) (s : State) : (afterCbcDecrypt cx s).left = s.left := rfl
@[simp] theorem afterCbcDecrypt_grain (cx : List Byte) (s : State) : (afterCbcDecrypt cx s).grain = s.grain := rfl
@[simp] theorem afterCbcDecrypt_script (cx : List Byte) (s : State) : (afterCbcDecrypt cx s).script = s.script := rfl
@[simp] theorem afterCbcDecrypt_rdata (cx : List Byte) (s : State) : (afterCbcDecrypt cx s).rdata = s.rdata := rfl

@[simp] theorem resetEvent_mem (s : State) : (resetEvent s).mem = State.reset.mem := rfl
@[simp] theorem resetEvent_klen (s : State) : (resetEvent s).klen = State.reset.klen := rfl
@[simp] theorem resetEvent_ivlen (s : State) : (resetEvent s).ivlen = State.reset.ivlen := rfl
@[simp] theorem resetEvent_ilen (s : State) : (resetEvent s).ilen = State.reset.ilen := rfl
@[simp] theorem resetEvent_olen (s : State) : (resetEvent s).olen = State.reset.olen := rfl
@[simp] theorem resetEvent_key (s : State) : (resetEvent s).key = State.reset.key := rfl
@[simp] theorem resetEvent_iv (s : State) : (resetEvent s).iv = State.reset.iv := rfl
@[simp] theorem resetEvent_rk (s : State) : (resetEvent s).rk = State.reset.rk := rfl
@[simp] theorem resetEvent_busy (s : State) : (resetEvent s).busy = State.reset.busy := rfl
@[simp] theorem resetEvent_keyed (s : State) : (resetEvent s).keyed = State.reset.keyed := rfl
@[simp] theorem resetEvent_err (s : State) : (resetEvent s).err = State.reset.err := rfl
@[simp] theorem resetEvent_l0 (s : State) : (resetEvent s).l0 = State.reset.l0 := rfl
@[simp] theorem resetEvent_l1 (s : State) : (resetEvent s).l1 = State.reset.l1 := rfl
@[simp] theorem resetEvent_r0 (s : State) : (resetEvent s).r0 = State.reset.r0 := rfl
@[simp] theorem resetEvent_r1 (s : State) : (resetEvent s).r1 = State.reset.r1 := rfl
@[simp] theorem resetEvent_a (s : State) : (resetEvent s).a = State.reset.a := rfl
@[simp] theorem resetEvent_b (s : State) : (resetEvent s).b = State.reset.b := rfl
@[simp] theorem resetEvent_c (s : State) : (resetEvent s).c = State.reset.c := rfl
@[simp] theorem resetEvent_d (s : State) : (resetEvent s).d = State.reset.d := rfl
@[simp] theorem resetEvent_chain (s : State) : (resetEvent s).chain = State.reset.chain := rfl
@[simp] theorem resetEvent_seq (s : State) : (resetEvent s).seq = State.reset.seq := rfl
@[simp] theorem resetEvent_cmd (s : State) : (resetEvent s).cmd = State.reset.cmd := rfl
@[simp] theorem resetEvent_left (s : State) : (resetEvent s).left = State.reset.left := rfl
@[simp] theorem resetEvent_grain (s : State) : (resetEvent s).grain = s.grain := rfl
@[simp] theorem resetEvent_script (s : State) : (resetEvent s).script = s.script := rfl
@[simp] theorem resetEvent_rdata (s : State) : (resetEvent s).rdata = State.reset.rdata := rfl

@[simp] theorem ksRound_mem (s : State) : (ksRound s).mem = s.mem := rfl
@[simp] theorem ksRound_klen (s : State) : (ksRound s).klen = s.klen := rfl
@[simp] theorem ksRound_ivlen (s : State) : (ksRound s).ivlen = s.ivlen := rfl
@[simp] theorem ksRound_ilen (s : State) : (ksRound s).ilen = s.ilen := rfl
@[simp] theorem ksRound_olen (s : State) : (ksRound s).olen = s.olen := rfl
@[simp] theorem ksRound_key (s : State) : (ksRound s).key = s.key := rfl
@[simp] theorem ksRound_iv (s : State) : (ksRound s).iv = s.iv := rfl
@[simp] theorem ksRound_rk (s : State) : (ksRound s).rk = (s.rk.setIfInBounds (2 * s.seq.rnd) (keyPair tables s.seq.rnd s.keyWords).1).setIfInBounds (2 * s.seq.rnd + 1)
    (keyPair tables s.seq.rnd s.keyWords).2 := rfl
@[simp] theorem ksRound_busy (s : State) : (ksRound s).busy = s.busy := rfl
@[simp] theorem ksRound_keyed (s : State) : (ksRound s).keyed = s.keyed := rfl
@[simp] theorem ksRound_err (s : State) : (ksRound s).err = s.err := rfl
@[simp] theorem ksRound_l0 (s : State) : (ksRound s).l0 = s.l0 := rfl
@[simp] theorem ksRound_l1 (s : State) : (ksRound s).l1 = s.l1 := rfl
@[simp] theorem ksRound_r0 (s : State) : (ksRound s).r0 = s.r0 := rfl
@[simp] theorem ksRound_r1 (s : State) : (ksRound s).r1 = s.r1 := rfl
@[simp] theorem ksRound_a (s : State) : (ksRound s).a = (keyRotate s.seq.rnd s.keyWords).a := rfl
@[simp] theorem ksRound_b (s : State) : (ksRound s).b = (keyRotate s.seq.rnd s.keyWords).b := rfl
@[simp] theorem ksRound_c (s : State) : (ksRound s).c = (keyRotate s.seq.rnd s.keyWords).c := rfl
@[simp] theorem ksRound_d (s : State) : (ksRound s).d = (keyRotate s.seq.rnd s.keyWords).d := rfl
@[simp] theorem ksRound_chain (s : State) : (ksRound s).chain = s.chain := rfl
@[simp] theorem ksRound_seq (s : State) : (ksRound s).seq = ⟨s.seq.phase, s.seq.rnd + 1, s.seq.blk⟩ := rfl
@[simp] theorem ksRound_cmd (s : State) : (ksRound s).cmd = s.cmd := rfl
@[simp] theorem ksRound_left (s : State) : (ksRound s).left = s.left := rfl
@[simp] theorem ksRound_grain (s : State) : (ksRound s).grain = s.grain := rfl
@[simp] theorem ksRound_script (s : State) : (ksRound s).script = s.script := rfl
@[simp] theorem ksRound_rdata (s : State) : (ksRound s).rdata = s.rdata := rfl

@[simp] theorem blkRound_mem (i : Instr) (s : State) : (blkRound i s).mem = s.mem := rfl
@[simp] theorem blkRound_klen (i : Instr) (s : State) : (blkRound i s).klen = s.klen := rfl
@[simp] theorem blkRound_ivlen (i : Instr) (s : State) : (blkRound i s).ivlen = s.ivlen := rfl
@[simp] theorem blkRound_ilen (i : Instr) (s : State) : (blkRound i s).ilen = s.ilen := rfl
@[simp] theorem blkRound_olen (i : Instr) (s : State) : (blkRound i s).olen = s.olen := rfl
@[simp] theorem blkRound_key (i : Instr) (s : State) : (blkRound i s).key = s.key := rfl
@[simp] theorem blkRound_iv (i : Instr) (s : State) : (blkRound i s).iv = s.iv := rfl
@[simp] theorem blkRound_rk (i : Instr) (s : State) : (blkRound i s).rk = s.rk := rfl
@[simp] theorem blkRound_busy (i : Instr) (s : State) : (blkRound i s).busy = s.busy := rfl
@[simp] theorem blkRound_keyed (i : Instr) (s : State) : (blkRound i s).keyed = s.keyed := rfl
@[simp] theorem blkRound_err (i : Instr) (s : State) : (blkRound i s).err = s.err := rfl
@[simp] theorem blkRound_l0 (i : Instr) (s : State) : (blkRound i s).l0 = (engineRound i s.rk s.seq.rnd s.halves).l0 := rfl
@[simp] theorem blkRound_l1 (i : Instr) (s : State) : (blkRound i s).l1 = (engineRound i s.rk s.seq.rnd s.halves).l1 := rfl
@[simp] theorem blkRound_r0 (i : Instr) (s : State) : (blkRound i s).r0 = (engineRound i s.rk s.seq.rnd s.halves).r0 := rfl
@[simp] theorem blkRound_r1 (i : Instr) (s : State) : (blkRound i s).r1 = (engineRound i s.rk s.seq.rnd s.halves).r1 := rfl
@[simp] theorem blkRound_a (i : Instr) (s : State) : (blkRound i s).a = s.a := rfl
@[simp] theorem blkRound_b (i : Instr) (s : State) : (blkRound i s).b = s.b := rfl
@[simp] theorem blkRound_c (i : Instr) (s : State) : (blkRound i s).c = s.c := rfl
@[simp] theorem blkRound_d (i : Instr) (s : State) : (blkRound i s).d = s.d := rfl
@[simp] theorem blkRound_chain (i : Instr) (s : State) : (blkRound i s).chain = s.chain := rfl
@[simp] theorem blkRound_seq (i : Instr) (s : State) : (blkRound i s).seq = ⟨s.seq.phase, s.seq.rnd + 1, s.seq.blk⟩ := rfl
@[simp] theorem blkRound_cmd (i : Instr) (s : State) : (blkRound i s).cmd = s.cmd := rfl
@[simp] theorem blkRound_left (i : Instr) (s : State) : (blkRound i s).left = s.left := rfl
@[simp] theorem blkRound_grain (i : Instr) (s : State) : (blkRound i s).grain = s.grain := rfl
@[simp] theorem blkRound_script (i : Instr) (s : State) : (blkRound i s).script = s.script := rfl
@[simp] theorem blkRound_rdata (i : Instr) (s : State) : (blkRound i s).rdata = s.rdata := rfl

@[simp] theorem State.keyWords_setKeyWords (s : State) (w : KeyWords) : (s.setKeyWords w).keyWords = w := rfl

@[simp] theorem State.halves_setHalves (s : State) (h : Halves) : (s.setHalves h).halves = h := rfl

@[simp] theorem succeed_eq (out : List Byte) (s : State) : succeed out s = complete .ok out s := rfl

@[simp] theorem fail_eq (e : ErrorKind) (s : State) : fail e s = complete e [] s := rfl

@[simp] theorem blockResult_eq (y : Block) (s : State) :
    blockResult y s = complete .ok (Block.toBytes y) (s.setHalves (Halves.load y)) := rfl

@[simp] theorem exec_init (s : State) : exec .init s = execInit s := rfl

@[simp] theorem exec_encblk (s : State) : exec .encblk s = execEncblk s := rfl

@[simp] theorem exec_decblk (s : State) : exec .decblk s = execDecblk s := rfl

@[simp] theorem exec_cbcenc (s : State) : exec .cbcenc s = execCbcenc s := rfl

@[simp] theorem exec_cbcdec (s : State) : exec .cbcdec s = execCbcdec s := rfl

end Sys2Proof.Machine
end

