-- ==== Sys2Proof/Laws/Memory.lean ====
section
/-! SUPPORT. The byte locations: read after write, what a write leaves alone, and that every operation keeps the canonical
form and the set of byte locations. -/

namespace Sys2Proof.Machine

/-- A location that no entry names reads 00. -/
theorem Memory.read_absent {m : Memory} {n : Nat} (h : ∀ c ∈ m, c.1 ≠ n) : m.read n = 0 := by
  induction m with
  | nil => rfl
  | cons c m ih =>
    rw [Memory.read, if_neg (Ne.symm (h c (by simp))), ih fun d hd => h d (by simp [hd])]

/-- A write leaves every other location alone. -/
theorem Memory.read_write_ne {m : Memory} {n k : Nat} (v : Byte) (h : k ≠ n) : (m.write n v).read k = m.read k := by
  induction m with
  | nil => rw [Memory.write]; split <;> simp [Memory.read, h]
  | cons c m ih =>
    simp only [Memory.write]
    split
    · split <;> simp [Memory.read, h]
    · split
      · rename_i hn
        split <;> simp [Memory.read, ← hn, h]
      · simp [Memory.read, ih]

/-- In canonical form the head of a memory lies below every entry of the rest. -/
theorem Memory.wf_cons {c : Host.Cell} {m : Memory} :
    Memory.wf (c :: m) ↔ (∀ d ∈ m, c.1 < d.1) ∧ c.2 ≠ 0 ∧ Memory.wf m := by
  constructor
  · rintro ⟨h1, h2⟩
    simp only [List.map_cons, List.pairwise_cons, List.mem_map, forall_exists_index, and_imp] at h1
    exact ⟨fun d hd => h1.1 d.1 d hd rfl, h2 c (by simp), h1.2, fun d hd => h2 d (by simp [hd])⟩
  · rintro ⟨h1, h2, h3, h4⟩
    refine ⟨?_, ?_⟩
    · simp only [List.map_cons, List.pairwise_cons, List.mem_map, forall_exists_index, and_imp]
      exact ⟨fun x d hd hx => hx ▸ h1 d hd, h3⟩
    · intro d hd
      rcases List.mem_cons.1 hd with rfl | hd
      · exact h2
      · exact h4 d hd

/-- A read gives the byte last written, in canonical form. -/
theorem Memory.read_write_same {m : Memory} (h : m.wf) (n : Nat) (v : Byte) : (m.write n v).read n = v := by
  induction m with
  | nil => rw [Memory.write]; split <;> simp_all [Memory.read]
  | cons c m ih =>
    obtain ⟨hlt, hne, hm⟩ := Memory.wf_cons.1 h
    simp only [Memory.write]
    split
    · split
      · rename_i h1 h2
        subst h2
        exact Memory.read_absent fun d hd => by
          rcases List.mem_cons.1 hd with rfl | hd
          · omega
          · have := hlt d hd; omega
      · simp [Memory.read]
    · split
      · split
        · rename_i h1 h2 h3
          subst h3
          exact Memory.read_absent fun d hd => by have := hlt d hd; omega
        · simp [Memory.read]
      · rename_i h1 h2
        rw [Memory.read, if_neg h2, ih hm]

/-- An entry of a written memory is an old one or the written location. -/
theorem Memory.mem_write {m : Memory} {n : Nat} {v : Byte} {c : Host.Cell} (h : c ∈ m.write n v) : c ∈ m ∨ c.1 = n := by
  induction m with
  | nil =>
    rw [Memory.write] at h
    split at h <;> simp_all
  | cons d m ih =>
    simp only [Memory.write] at h
    split at h
    · split at h <;> simp_all
      rcases h with rfl | h | h <;> simp_all
    · split at h
      · split at h
        · exact .inl (by simp [h])
        · rcases List.mem_cons.1 h with rfl | h
          · exact .inr rfl
          · exact .inl (by simp [h])
      · rcases List.mem_cons.1 h with rfl | h
        · exact .inl (by simp)
        · exact (ih h).imp (by simp +contextual) id

/-- A write keeps the canonical form. -/
theorem Memory.wf_write {m : Memory} (h : m.wf) (n : Nat) (v : Byte) : (m.write n v).wf := by
  induction m with
  | nil =>
    rw [Memory.write]
    split
    · exact h
    · simp_all [Memory.wf]
  | cons c m ih =>
    obtain ⟨hlt, hne, hm⟩ := Memory.wf_cons.1 h
    simp only [Memory.write]
    split
    · split
      · exact h
      · rename_i h1 h2
        refine Memory.wf_cons.2 ⟨fun d hd => ?_, h2, h⟩
        rcases List.mem_cons.1 hd with rfl | hd
        · exact h1
        · exact h1.trans (hlt d hd)
    · split
      · split
        · exact hm
        · rename_i h1 h2 h3
          exact Memory.wf_cons.2 ⟨fun d hd => h2 ▸ hlt d hd, h3, hm⟩
      · rename_i h1 h2
        refine Memory.wf_cons.2 ⟨fun d hd => ?_, hne, ih hm⟩
        rcases Memory.mem_write hd with hd | hd
        · exact hlt d hd
        · omega

/-- Writing a run of bytes leaves every location outside the run alone. -/
theorem Memory.read_writeBytes_out {m : Memory} {base k : Nat} {vs : List Byte} (h : k < base ∨ base + vs.length ≤ k) :
    (m.writeBytes base vs).read k = m.read k := by
  induction vs generalizing m base with
  | nil => rfl
  | cons v vs ih =>
    rw [List.length_cons] at h
    rw [Memory.writeBytes, ih (by omega), Memory.read_write_ne v (by omega)]

/-- A run of bytes written reads back. -/
theorem Memory.read_writeBytes_in {m : Memory} (hm : m.wf) {base : Nat} {vs : List Byte} {i : Nat} (h : i < vs.length) :
    (m.writeBytes base vs).read (base + i) = vs.getD i 0 := by
  induction vs generalizing m base i with
  | nil => simp at h
  | cons v vs ih =>
    rw [Memory.writeBytes]
    cases i with
    | zero => rw [Memory.read_writeBytes_out (by omega), Nat.add_zero, Memory.read_write_same hm]; rfl
    | succ i =>
      rw [show base + (i + 1) = base + 1 + i by omega, ih (Memory.wf_write hm base v) (by simpa using h)]
      simp

theorem Memory.wf_writeBytes {m : Memory} (hm : m.wf) (base : Nat) (vs : List Byte) : (m.writeBytes base vs).wf := by
  induction vs generalizing m base with
  | nil => exact hm
  | cons v vs ih => exact ih (Memory.wf_write hm base v) _

/-- An entry after writing a run of bytes is an old one or lies in the run. -/
theorem Memory.mem_writeBytes {m : Memory} {base : Nat} {vs : List Byte} {c : Host.Cell} (h : c ∈ m.writeBytes base vs) :
    c ∈ m ∨ (base ≤ c.1 ∧ c.1 < base + vs.length) := by
  induction vs generalizing m base with
  | nil => exact .inl h
  | cons v vs ih =>
    rw [List.length_cons]
    rcases ih h with h | h
    · exact (Memory.mem_write h).imp id fun h => by omega
    · exact .inr (by omega)

/-- Clearing OBUF leaves every other location alone. -/
theorem Memory.read_clearObuf_out (m : Memory) {n : Nat} (h : inObuf n = false) : m.clearObuf.read n = m.read n := by
  induction m with
  | nil => rfl
  | cons c m ih =>
    unfold Memory.clearObuf at *
    rw [List.filter_cons]
    split
    · simp [Memory.read, ih]
    · rename_i hc
      rw [ih, Memory.read, if_neg]
      rintro rfl
      simp [h] at hc

/-- After clearing OBUF every byte of it reads 00. -/
theorem Memory.read_clearObuf_in (m : Memory) {n : Nat} (h : inObuf n = true) : m.clearObuf.read n = 0 :=
  Memory.read_absent fun c hc hn => by
    have := (List.mem_filter.1 hc).2
    simp [hn, h] at this

theorem Memory.wf_clearObuf {m : Memory} (h : m.wf) : m.clearObuf.wf :=
  ⟨h.1.sublist (List.filter_sublist.map _), fun c hc => h.2 c (List.mem_filter.1 hc).1⟩

theorem Memory.wf_setObuf {m : Memory} (h : m.wf) (out : List Byte) : (m.setObuf out).wf := by
  rw [Memory.setObuf]
  exact Memory.wf_writeBytes (Memory.wf_clearObuf h) _ _

/-- `inObuf`, as bounds. -/
theorem inObuf_iff {n : Nat} : inObuf n = true ↔ obufBase ≤ n ∧ n < obufBase + Config.bufBytes := by
  simp [inObuf]

/-- Rewriting OBUF with a result that fits leaves every location outside OBUF alone. -/
theorem Memory.read_setObuf_out (m : Memory) {out : List Byte} (hl : out.length ≤ Config.bufBytes) {n : Nat}
    (h : inObuf n = false) : (m.setObuf out).read n = m.read n := by
  rw [Memory.setObuf, Memory.read_writeBytes_out, Memory.read_clearObuf_out _ h]
  by_contra hc
  have := (inObuf_iff (n := n)).2 ⟨by omega, by omega⟩
  simp [h] at this

/-- A location written that no entry named reads the byte written, in any memory. -/
theorem Memory.read_write_absent {m : Memory} {n : Nat} (v : Byte) (h : ∀ c ∈ m, c.1 ≠ n) : (m.write n v).read n = v := by
  induction m with
  | nil => rw [Memory.write]; split <;> simp_all [Memory.read]
  | cons c m ih =>
    have hc : ¬n = c.1 := Ne.symm (h c (by simp))
    simp only [Memory.write]
    split
    · split
      · rename_i hv
        rw [Memory.read_absent h, hv]
      · simp [Memory.read]
    · rw [Memory.read, if_neg hc, ih fun d hd => h d (by simp [hd])]

/-- A run of locations that no entry named reads the bytes written to it, in any memory. -/
theorem Memory.read_writeBytes_absent {m : Memory} {base : Nat} {vs : List Byte}
    (hm : ∀ c ∈ m, c.1 < base ∨ base + vs.length ≤ c.1) {i : Nat} (h : i < vs.length) :
    (m.writeBytes base vs).read (base + i) = vs.getD i 0 := by
  induction vs generalizing m base i with
  | nil => simp at h
  | cons v vs ih =>
    rw [List.length_cons] at hm h
    rw [Memory.writeBytes]
    cases i with
    | zero =>
      rw [Memory.read_writeBytes_out (by omega), Nat.add_zero, Memory.read_write_absent v fun c hc => by have := hm c hc; omega]
      rfl
    | succ i =>
      rw [show base + (i + 1) = base + 1 + i by omega, ih _ (by omega)]
      · simp
      · intro c hc
        rcases Memory.mem_write hc with hc | hc
        · have := hm c hc; omega
        · omega

/-- Rewriting OBUF: result byte i at index i, 00 beyond (10_state R24), in any memory. -/
theorem Memory.read_setObuf_in (m : Memory) {out : List Byte} (hl : out.length ≤ Config.bufBytes) {i : Nat}
    (hi : i < Config.bufBytes) : (m.setObuf out).read (obufBase + i) = out.getD i 0 := by
  by_cases h : i < out.length
  · rw [Memory.setObuf]
    refine Memory.read_writeBytes_absent (fun c hc => ?_) h
    have h2 := (List.mem_filter.1 hc).2
    by_contra hn
    have := (inObuf_iff (n := c.1)).2 ⟨by omega, by omega⟩
    simp [this] at h2
  · rw [Memory.setObuf, Memory.read_writeBytes_out (by omega),
      Memory.read_clearObuf_in _ (inObuf_iff.2 ⟨by omega, by omega⟩), List.getD_eq_default _ _ (by omega)]

/-- Rewriting OBUF with nothing: 00 everywhere, in any memory. -/
theorem Memory.read_setObuf_nil (m : Memory) {i : Nat} (hi : i < Config.bufBytes) :
    (m.setObuf []).read (obufBase + i) = 0 := by
  rw [Memory.setObuf]
  exact Memory.read_clearObuf_in m (inObuf_iff.2 ⟨by omega, by omega⟩)

/-- Clearing OBUF forgets a write into OBUF. -/
theorem Memory.clearObuf_write (m : Memory) {n : Nat} (v : Byte) (h : inObuf n = true) :
    (m.write n v).clearObuf = m.clearObuf := by
  induction m with
  | nil =>
    rw [Memory.write]
    split <;> simp [Memory.clearObuf, h]
  | cons c m ih =>
    unfold Memory.clearObuf at *
    simp only [Memory.write]
    split
    · split <;> simp [List.filter_cons, h]
    · split
      · rename_i hc
        split <;> simp [← hc, h]
      · simp [List.filter_cons, ih]

/-- Every memory operation keeps "nothing outside the byte locations is held": a write to a byte location does. -/
theorem Memory.byteAddr_write {m : Memory} (hm : ∀ c ∈ m, isByteAddr c.1 = true) {n : Nat} (v : Byte)
    (h : isByteAddr n = true) : ∀ c ∈ m.write n v, isByteAddr c.1 = true := fun c hc => by
  rcases Memory.mem_write hc with hc | hc
  · exact hm c hc
  · rw [hc, h]

/-- The memory right after reset is in canonical form. -/
theorem reset_mem_wf : State.reset.mem.wf := by decide

end Sys2Proof.Machine
end

