-- ==== Sys2Proof/Laws/Bytes.lean ====
section
/-! SUPPORT. Lengths and indexing of byte sequences, blocks, padding and chaining. -/

namespace Sys2Proof

@[simp] theorem length_bytesBe (w : Word) : (bytesBe w).length = 4 := rfl

@[simp] theorem length_toBytes (x : Block) : (Block.toBytes x).length = 16 := rfl

@[simp] theorem length_bytesOf (bs : List Block) : (bytesOf bs).length = 16 * bs.length := by
  induction bs with
  | nil => rfl
  | cons b bs ih =>
    rw [bytesOf, List.flatMap_cons, List.length_append, ← bytesOf, ih, length_toBytes, List.length_cons]
    omega

@[simp] theorem bytesOf_nil : bytesOf [] = [] := rfl

theorem bytesOf_cons (b : Block) (bs : List Block) : bytesOf (b :: bs) = Block.toBytes b ++ bytesOf bs := rfl

@[simp] theorem length_blocksOf (l : List Byte) : (blocksOf l).length = l.length / 16 := by simp [blocksOf]

/-- The first block of a sequence whose first 16 bytes are `x`, and the rest. -/
theorem blocksOf_append {x l : List Byte} (hx : x.length = 16) : blocksOf (x ++ l) = Block.ofBytes x :: blocksOf l := by
  have h : (x ++ l).length / 16 = l.length / 16 + 1 := by rw [List.length_append, hx]; omega
  have hk : ∀ k, (x ++ l).drop (16 * (k + 1)) = l.drop (16 * k) := fun k => by
    rw [show 16 * (k + 1) = x.length + 16 * k by omega, List.drop_append]
    simp
  have h0 : ((x ++ l).drop (16 * 0)).take 16 = x := by
    rw [Nat.mul_zero, List.drop_zero, ← hx, List.take_left']
    rfl
  rw [blocksOf, h, List.range_succ_eq_map, List.map_cons, List.map_map, h0, blocksOf]
  exact congrArg _ (List.map_congr_left fun k _ => by rw [Function.comp_apply, Nat.succ_eq_add_one, hk])

namespace Machine

@[simp] theorem length_readBytes (m : Memory) (base n : Nat) : (m.readBytes base n).length = n := by
  simp [Memory.readBytes]

theorem getD_readBytes (m : Memory) (base : Nat) {n i : Nat} (h : i < n) :
    (m.readBytes base n).getD i 0 = m.read (base + i) := by
  simp [Memory.readBytes, List.getD_eq_getElem?_getD, h]

/-- Reads of two memories that agree on a run of locations. -/
theorem readBytes_congr {m m' : Memory} {base n : Nat} (h : ∀ i, i < n → m.read (base + i) = m'.read (base + i)) :
    m.readBytes base n = m'.readBytes base n :=
  List.map_congr_left fun i hi => h i (List.mem_range.1 hi)

@[simp] theorem length_bufferInput (s : State) : (bufferInput s).length = s.ilen.toNat := length_readBytes ..

theorem padLength_pos (n : Nat) : 1 ≤ padLength n ∧ padLength n ≤ 16 := by unfold padLength; omega

theorem length_pad (p : List Byte) : (pad p).length = 16 * (p.length / 16 + 1) := by
  rw [pad, List.length_append, List.length_replicate, padLength]; omega

@[simp] theorem length_cbcEncryptBlocks (T : Tables) (rk : Vector Word 32) (prev : Block) (ms : List Block) :
    (cbcEncryptBlocks T rk prev ms).length = ms.length := by
  induction ms generalizing prev with
  | nil => rfl
  | cons m ms ih => rw [cbcEncryptBlocks, List.length_cons, ih, List.length_cons]

@[simp] theorem length_cbcDecryptBlocks (T : Tables) (rk : Vector Word 32) (prev : Block) (cs : List Block) :
    (cbcDecryptBlocks T rk prev cs).length = cs.length := by
  induction cs generalizing prev with
  | nil => rfl
  | cons c cs ih => rw [cbcDecryptBlocks, List.length_cons, ih, List.length_cons]

theorem length_cbcEncrypt (T : Tables) (rk : Vector Word 32) (iv : Block) (p : List Byte) :
    (cbcEncrypt T rk iv p).length = 16 * (p.length / 16 + 1) := by
  rw [cbcEncrypt, length_bytesOf, length_cbcEncryptBlocks, length_blocksOf, length_pad]; omega

/-- What Unpad answers: an error, which is InvalidPadding, or a prefix shorter by 1 to 16 bytes. -/
theorem unpad_cases (q : List Byte) :
    unpad q = .error .invalidPadding ∨
      ∃ n, 1 ≤ n ∧ n ≤ 16 ∧ n = (q.getD (q.length - 1) 0).toNat ∧ unpad q = .ok (q.take (q.length - n)) := by
  unfold unpad
  dsimp only
  split
  · exact .inl rfl
  · split
    · exact .inr ⟨_, by omega, by omega, rfl, rfl⟩
    · exact .inl rfl

/-- A successful CbcDecrypt: the length was a positive multiple of 16, and the result is 1 to 16 bytes shorter. -/
theorem cbcDecrypt_length {T : Tables} {rk : Vector Word 32} {iv : Block} {cx y : List Byte}
    (h : cbcDecrypt T rk iv cx = .ok y) :
    cx.length ≠ 0 ∧ cx.length % 16 = 0 ∧ ∃ n, 1 ≤ n ∧ n ≤ 16 ∧ y.length + n = cx.length := by
  unfold cbcDecrypt at h
  split at h
  · exact absurd h (by simp)
  · rename_i hl
    push Not at hl
    refine ⟨hl.1, hl.2, ?_⟩
    rcases unpad_cases (bytesOf (cbcDecryptBlocks T rk iv (blocksOf cx))) with he | ⟨n, h1, h2, -, hok⟩
    · rw [he] at h; exact absurd h (by simp)
    · rw [hok] at h
      cases h
      refine ⟨n, h1, h2, ?_⟩
      rw [List.length_take, length_bytesOf, length_cbcDecryptBlocks, length_blocksOf]
      omega

end Machine

end Sys2Proof
end

