-- ==== Sys2Proof/Laws/Commands.lean ====
section
/-! SUPPORT. What the two ends of a command do, and every way a command can end: cited instead of unfolding the commands. -/

namespace Sys2Proof.Safety

open Sys2Proof.Machine

/-- The end of a command, with a result that fits. -/
theorem complete_output (e : ErrorKind) {out : List Byte} (h : out.length ≤ Config.bufBytes) (s : State) :
    OutputIs (complete e out s) out := by
  have hb : Config.bufBytes = 4096 := rfl
  refine ⟨?_, fun i hi => Memory.read_setObuf_in s.mem h hi⟩
  rw [complete_olen, BitVec.toNat_ofNat, Nat.mod_eq_of_lt (by omega)]

theorem complete_idle (e : ErrorKind) (out : List Byte) (s : State) : Idle (complete e out s) := ⟨rfl, rfl, rfl, rfl⟩

theorem complete_staging (e : ErrorKind) {out : List Byte} (h : out.length ≤ Config.bufBytes) (s : State) :
    StagingUnchanged s (complete e out s) :=
  ⟨rfl, rfl, rfl, fun _ hn => Memory.read_setObuf_out s.mem h hn⟩

/-- The common error effect, from any state that differs from `s` only in hidden words. -/
theorem complete_error {e : ErrorKind} {s s' : State} (hm : s'.mem = s.mem) (hs : StagingUnchanged s s')
    (hi : InstanceUnchanged s s') (hh : HostUnchanged s s') : ErrorEffect e s (complete e [] s') := by
  refine ⟨rfl, complete_output e (by simp) s', complete_idle .., ?_, hi, hh⟩
  have h := complete_staging e (out := []) (by simp) s'
  exact ⟨h.1.trans hs.1, h.2.1.trans hs.2.1, h.2.2.1.trans hs.2.2.1, fun n hn => (h.2.2.2 n hn).trans (hm ▸ rfl)⟩

/-- `fail e` has the common error effect and leaves the hidden words alone (60_exceptions R157). -/
theorem fail_effect (e : ErrorKind) (s : State) : ErrorEffect e s (fail e s) :=
  complete_error rfl ⟨rfl, rfl, rfl, fun _ _ => rfl⟩ ⟨rfl, rfl, rfl, rfl⟩ ⟨rfl, rfl, rfl⟩

/-- A success from a state that differs from `s` only in hidden words and the instance. -/
theorem complete_success {out : List Byte} {s s' : State} (h : out.length ≤ Config.bufBytes) (hm : s'.mem = s.mem)
    (hs : StagingUnchanged s s') (hh : HostUnchanged s s') : SuccessEffect out s (complete .ok out s') := by
  refine ⟨rfl, complete_output _ h s', complete_idle .., ?_, hh⟩
  have h' := complete_staging .ok h s'
  exact ⟨h'.1.trans hs.1, h'.2.1.trans hs.2.1, h'.2.2.1.trans hs.2.2.1, fun n hn => (h'.2.2.2 n hn).trans (hm ▸ rfl)⟩

/-- The success of a block command: OBUF holds the 16 bytes of the result block (43_block_core R120, R121). -/
theorem blockResult_success (y : Block) (s : State) : SuccessEffect (Block.toBytes y) s (blockResult y s) :=
  complete_success (by rw [length_toBytes]; decide) rfl ⟨rfl, rfl, rfl, fun _ _ => rfl⟩ ⟨rfl, rfl, rfl⟩

theorem blockResult_olen (y : Block) (s : State) : (blockResult y s).olen = 16 := by
  rw [blockResult_eq, complete_olen, length_toBytes]; rfl

/-- A block command touches neither the instance nor the key-schedule words nor CHAIN. -/
theorem blockResult_frame (y : Block) (s : State) :
    InstanceUnchanged s (blockResult y s) ∧ KeyWordsUnchanged s (blockResult y s) ∧ (blockResult y s).chain = s.chain :=
  ⟨⟨rfl, rfl, rfl, rfl⟩, ⟨rfl, rfl, rfl, rfl⟩, rfl⟩

/-- A step of INIT: a failed check, or the instance latched (42_key_schedule R106). -/
theorem execInit_cases (s : State) :
    (initCheck s ≠ .ok ∧ execInit s = .next (fail (initCheck s) s)) ∨
    (initCheck s = .ok ∧ execInit s = .next (succeed [] (latchInstance s))) := by
  unfold execInit
  cases h : initCheck s <;> simp

/-- A step of ENCBLK: a failed check, or the encrypted block (43_block_core R120). -/
theorem execEncblk_cases (s : State) :
    (blockCheck s ≠ .ok ∧ execEncblk s = .next (fail (blockCheck s) s)) ∨
    (blockCheck s = .ok ∧ execEncblk s = .next (blockResult (encryptBlock tables s.rk (blockInput s)) s)) := by
  unfold execEncblk
  cases h : blockCheck s <;> simp

/-- A step of DECBLK: a failed check, or the decrypted block (43_block_core R121). -/
theorem execDecblk_cases (s : State) :
    (blockCheck s ≠ .ok ∧ execDecblk s = .next (fail (blockCheck s) s)) ∨
    (blockCheck s = .ok ∧ execDecblk s = .next (blockResult (decryptBlock tables s.rk (blockInput s)) s)) := by
  unfold execDecblk
  cases h : blockCheck s <;> simp

/-- A step of CBCENC: a failed check, or the chained encryption (44_cbc_wrapper R138). -/
theorem execCbcenc_cases (s : State) :
    (cbcencCheck s ≠ .ok ∧ execCbcenc s = .next (fail (cbcencCheck s) s)) ∨
    (cbcencCheck s = .ok ∧
      execCbcenc s = .next (succeed (cbcEncrypt tables s.rk s.iv (bufferInput s))
        (afterCbcEncrypt (cbcEncrypt tables s.rk s.iv (bufferInput s)) s))) := by
  unfold execCbcenc
  cases h : cbcencCheck s <;> simp

/-- A step of CBCDEC: a failed check, a failed Unpad, or the plaintext (44_cbc_wrapper R139). -/
theorem execCbcdec_cases (s : State) :
    (cbcdecCheck s ≠ .ok ∧ execCbcdec s = .next (fail (cbcdecCheck s) s)) ∨
    (cbcdecCheck s = .ok ∧ (∃ e, cbcDecrypt tables s.rk s.iv (bufferInput s) = .error e) ∧
      execCbcdec s = .next (fail .invalidPadding (afterCbcDecrypt (bufferInput s) s))) ∨
    (cbcdecCheck s = .ok ∧ ∃ y, cbcDecrypt tables s.rk s.iv (bufferInput s) = .ok y ∧
      execCbcdec s = .next (succeed y (afterCbcDecrypt (bufferInput s) s))) := by
  unfold execCbcdec
  cases h : cbcdecCheck s <;> simp
  cases hd : cbcDecrypt tables s.rk s.iv (bufferInput s) <;> simp

/-- The checks of INIT, read backwards. -/
theorem initCheck_ok {s : State} : initCheck s = .ok ↔ s.keyed = false ∧ s.klen = 16 ∧ s.ivlen = 16 := by
  unfold initCheck
  cases s.keyed <;> simp
  split <;> simp_all

/-- The checks of ENCBLK and DECBLK, read backwards. -/
theorem blockCheck_ok {s : State} : blockCheck s = .ok ↔ s.keyed = true ∧ s.ilen = 16 := by
  unfold blockCheck
  cases s.keyed <;> simp

/-- The checks of CBCENC, read backwards. -/
theorem cbcencCheck_ok {s : State} : cbcencCheck s = .ok ↔ s.keyed = true ∧ s.ilen.toNat ≤ Config.bufBytes - 1 := by
  unfold cbcencCheck
  cases s.keyed <;> simp

/-- The checks of CBCDEC, read backwards. -/
theorem cbcdecCheck_ok {s : State} :
    cbcdecCheck s = .ok ↔
      s.keyed = true ∧ s.ilen.toNat ≤ Config.bufBytes ∧ s.ilen.toNat ≠ 0 ∧ s.ilen.toNat % 16 = 0 := by
  unfold cbcdecCheck
  cases s.keyed <;> simp
  split
  · simp; omega
  · split <;> simp <;> omega

/-- Every way a command ends: with the common error effect, from a state that differs from `s` only in hidden words, or with
a result that fits OBUF. -/
theorem exec_cases (i : Instr) (s : State) :
    (∃ e, e ≠ .ok ∧ exec i s = .next (fail e s)) ∨
    (exec i s = .next (fail .invalidPadding (afterCbcDecrypt (bufferInput s) s))) ∨
    (i = .init ∧ initCheck s = .ok ∧ exec i s = .next (succeed [] (latchInstance s))) ∨
    (∃ y, s.keyed = true ∧ exec i s = .next (blockResult y s)) ∨
    (∃ y, s.keyed = true ∧ y.length ≤ Config.bufBytes ∧ exec i s = .next (succeed y (afterCbcEncrypt y s))) ∨
    (∃ y, s.keyed = true ∧ y.length ≤ Config.bufBytes ∧
      exec i s = .next (succeed y (afterCbcDecrypt (bufferInput s) s))) := by
  have hb : Config.bufBytes = 4096 := rfl
  cases i with
  | init =>
    rcases execInit_cases s with ⟨h, h'⟩ | ⟨h, h'⟩
    · exact .inl ⟨_, h, h'⟩
    · exact .inr (.inr (.inl ⟨rfl, h, h'⟩))
  | encblk =>
    rcases execEncblk_cases s with ⟨h, h'⟩ | ⟨h, h'⟩
    · exact .inl ⟨_, h, h'⟩
    · exact .inr (.inr (.inr (.inl ⟨_, (blockCheck_ok.1 h).1, h'⟩)))
  | decblk =>
    rcases execDecblk_cases s with ⟨h, h'⟩ | ⟨h, h'⟩
    · exact .inl ⟨_, h, h'⟩
    · exact .inr (.inr (.inr (.inl ⟨_, (blockCheck_ok.1 h).1, h'⟩)))
  | cbcenc =>
    rcases execCbcenc_cases s with ⟨h, h'⟩ | ⟨h, h'⟩
    · exact .inl ⟨_, h, h'⟩
    · have := (cbcencCheck_ok.1 h).2
      exact .inr (.inr (.inr (.inr (.inl
        ⟨_, (cbcencCheck_ok.1 h).1, by rw [length_cbcEncrypt, length_bufferInput]; omega, h'⟩))))
  | cbcdec =>
    rcases execCbcdec_cases s with ⟨h, h'⟩ | ⟨h, he, h'⟩ | ⟨h, y, hy, h'⟩
    · exact .inl ⟨_, h, h'⟩
    · exact .inr (.inl h')
    · obtain ⟨-, -, n, -, -, hl⟩ := cbcDecrypt_length hy
      have := (cbcdecCheck_ok.1 h).2.1
      rw [length_bufferInput] at hl
      exact .inr (.inr (.inr (.inr (.inr ⟨y, (cbcdecCheck_ok.1 h).1, by omega, h'⟩))))

end Sys2Proof.Safety
end

