-- ==== Sys2Proof/Laws/PerInstr.lean ====
section
/-! SUPPORT. One lemma per constructor of `Instr`: the form of its command word (30_encoding R60, R63, R65). -/

namespace Sys2Proof.Laws.Encoding

/-- The command word of `i` is legal and decodes to `i`, and of all words that differ from it in the `zero` field alone none other
decodes (R60, R63, R64). -/
def Statement (i : Instr) : Prop :=
  i.wf = true ∧ decode (encode i) = .ok i ∧
    ∀ u : BitVec 24, u ≠ 0 → decode ((u ++ opField (encode i) : Word)) = .error .upperBitsSet

/-- A word with a bit of `zero` set is refused. -/
theorem decode_upper {u : BitVec 24} (o : Byte) (h : u ≠ 0) : decode ((u ++ o : Word)) = .error .upperBitsSet := by
  have hz : zeroField (u ++ o) = u := by
    unfold zeroField
    ext k hk
    have hg : (u ++ o).getLsbD (8 + k) = u.getLsbD k := by rw [BitVec.getLsbD_append]; simp
    rw [BitVec.getElem_extractLsb', ← BitVec.getLsbD_eq_getElem]
    exact hg
  have hne : ∀ k : Word, zeroField k = 0 → ((u ++ o : Word) == k) = false := by
    intro k hk
    rw [beq_eq_false_iff_ne]
    rintro rfl
    exact h (hz.symm.trans hk)
  have hm : (u ++ o : Word) &&& 0xFFFFFFFF = u ++ o := BitVec.and_allOnes
  simp only [decode, opcodeTable, List.find?, hm]
  rw [hne 1 (by decide), hne 2 (by decide), hne 3 (by decide), hne 4 (by decide), hne 5 (by decide)]
  exact if_pos (by rw [hz]; exact h)

theorem init : Statement .init := ⟨by decide, by decide, fun _ h => decode_upper _ h⟩

theorem encblk : Statement .encblk := ⟨by decide, by decide, fun _ h => decode_upper _ h⟩

theorem decblk : Statement .decblk := ⟨by decide, by decide, fun _ h => decode_upper _ h⟩

theorem cbcenc : Statement .cbcenc := ⟨by decide, by decide, fun _ h => decode_upper _ h⟩

theorem cbcdec : Statement .cbcdec := ⟨by decide, by decide, fun _ h => decode_upper _ h⟩

end Sys2Proof.Laws.Encoding
end

