-- ==== Sys2Proof/Laws/Port.lean ====
section
/-! SUPPORT. The address map read backwards, and everything a host access can do. -/

namespace Sys2Proof.Machine

/-- The first addresses of the windows and the buffer size, for linear arithmetic. -/
theorem map_values : keybufBase = 16 ∧ ivbufBase = 32 ∧ rkBase = 64 ∧ ibufBase = 65536 ∧ obufBase = 131072 ∧
    Config.bufBytes = 4096 := by decide

/-- Where an address lies, from the location it names; an unmapped one lies in no region (20_memory R42, 30_encoding R66). -/
def Location.At (n : Nat) : Location → Prop
  | .cmd => n = 0
  | .status => n = 1
  | .klen => n = 2
  | .ivlen => n = 3
  | .ilen => n = 4
  | .olen => n = 5
  | .keybuf i => i < 16 ∧ n = keybufBase + i
  | .ivbuf i => i < 16 ∧ n = ivbufBase + i
  | .rk i => i < 32 ∧ n = rkBase + i
  | .ibuf i => i < Config.bufBytes ∧ n = ibufBase + i
  | .obuf i => i < Config.bufBytes ∧ n = obufBase + i
  | .unmapped => 5 < n ∧ ¬(keybufBase ≤ n ∧ n < ivbufBase + 16) ∧ ¬(rkBase ≤ n ∧ n < rkBase + 32) ∧
      ¬(ibufBase ≤ n ∧ n < ibufBase + Config.bufBytes) ∧ ¬(obufBase ≤ n ∧ n < obufBase + Config.bufBytes)

/-- Every number lies at a location. -/
theorem Location.exists_at (n : Nat) : ∃ l : Location, l.At n := by
  obtain ⟨h1, h2, h3, h4, h5, h6⟩ := map_values
  by_cases hr : n ≤ 5
  · obtain rfl | rfl | rfl | rfl | rfl | rfl : n = 0 ∨ n = 1 ∨ n = 2 ∨ n = 3 ∨ n = 4 ∨ n = 5 := by omega
    exacts [⟨.cmd, rfl⟩, ⟨.status, rfl⟩, ⟨.klen, rfl⟩, ⟨.ivlen, rfl⟩, ⟨.ilen, rfl⟩, ⟨.olen, rfl⟩]
  by_cases hk : keybufBase ≤ n ∧ n < keybufBase + 16
  · exact ⟨.keybuf (n - keybufBase), by omega, by omega⟩
  by_cases hv : ivbufBase ≤ n ∧ n < ivbufBase + 16
  · exact ⟨.ivbuf (n - ivbufBase), by omega, by omega⟩
  by_cases hs : rkBase ≤ n ∧ n < rkBase + 32
  · exact ⟨.rk (n - rkBase), by omega, by omega⟩
  by_cases hi : ibufBase ≤ n ∧ n < ibufBase + Config.bufBytes
  · exact ⟨.ibuf (n - ibufBase), by omega, by omega⟩
  by_cases ho : obufBase ≤ n ∧ n < obufBase + Config.bufBytes
  · exact ⟨.obuf (n - obufBase), by omega, by omega⟩
  exact ⟨.unmapped, by simp only [Location.At]; omega⟩

/-- An address that lies at a location names it: the regions do not overlap (10_state R35). -/
theorem locate_of_at {a : Word} {l : Location} (h : l.At a.toNat) : locate a = l := by
  obtain ⟨h1, h2, h3, h4, h5, h6⟩ := map_values
  unfold locate
  generalize a.toNat = n at h
  cases l <;> simp only [Location.At] at h <;> simp (disch := omega) only [↓if_neg, ↓if_pos]
  all_goals exact congrArg _ (by omega)

/-- The address map: an address names a location exactly when it lies there. -/
theorem locate_eq_iff {a : Word} {l : Location} : locate a = l ↔ l.At a.toNat :=
  ⟨fun h => by obtain ⟨l', hl⟩ := Location.exists_at a.toNat; rwa [← h, locate_of_at hl], locate_of_at⟩

theorem locate_at (a : Word) : (locate a).At a.toNat := locate_eq_iff.1 rfl

theorem locate_eq_keybuf {a : Word} {i : Nat} : locate a = .keybuf i ↔ i < 16 ∧ a.toNat = keybufBase + i := locate_eq_iff

theorem locate_eq_ivbuf {a : Word} {i : Nat} : locate a = .ivbuf i ↔ i < 16 ∧ a.toNat = ivbufBase + i := locate_eq_iff

theorem locate_eq_rk {a : Word} {i : Nat} : locate a = .rk i ↔ i < 32 ∧ a.toNat = rkBase + i := locate_eq_iff

theorem locate_eq_ibuf {a : Word} {i : Nat} : locate a = .ibuf i ↔ i < Config.bufBytes ∧ a.toNat = ibufBase + i :=
  locate_eq_iff

theorem locate_eq_obuf {a : Word} {i : Nat} : locate a = .obuf i ↔ i < Config.bufBytes ∧ a.toNat = obufBase + i :=
  locate_eq_iff

/-- The control registers' addresses name them. -/
theorem locate_addr :
    locate (addr .cmd) = .cmd ∧ locate (addr .status) = .status ∧ locate (addr .klen) = .klen ∧
      locate (addr .ivlen) = .ivlen ∧ locate (addr .ilen) = .ilen ∧ locate (addr .olen) = .olen := by decide

/-- The address of a round-key word names it. -/
theorem locate_addr_rk {i : Nat} (h : i < 32) : locate (addr (.rk i)) = .rk i := by
  refine locate_eq_rk.2 ⟨h, ?_⟩
  have := map_values.2.2.1
  simp only [addr, BitVec.toNat_ofNat]
  omega

/-- A byte location the host may write: its address is in KEYBUF, IVBUF or IBUF, so not in OBUF. -/
def Writable (n : Nat) : Prop := isByteAddr n = true ∧ inObuf n = false

theorem writable_iff {n : Nat} :
    Writable n ↔ (keybufBase ≤ n ∧ n < keybufBase + 16) ∨ (ivbufBase ≤ n ∧ n < ivbufBase + 16) ∨
      (ibufBase ≤ n ∧ n < ibufBase + Config.bufBytes) := by
  have hb : Config.bufBytes = 4096 := rfl
  simp only [Writable, isByteAddr, inObuf, Bool.or_eq_true, Bool.and_eq_true, Bool.and_eq_false_iff, decide_eq_true_eq,
    decide_eq_false_iff_not]
  unfold keybufBase ivbufBase ibufBase obufBase
  omega

theorem writable_keybuf {i : Nat} (h : i < 16) : Writable (keybufBase + i) := by
  rw [writable_iff]
  unfold keybufBase ivbufBase ibufBase at *
  omega

theorem writable_ivbuf {i : Nat} (h : i < 16) : Writable (ivbufBase + i) := by
  rw [writable_iff]
  unfold keybufBase ivbufBase ibufBase at *
  omega

theorem writable_ibuf {i : Nat} (h : i < Config.bufBytes) : Writable (ibufBase + i) := by
  rw [writable_iff]
  unfold keybufBase ivbufBase ibufBase at *
  omega

/-- A byte of OBUF is a byte location in the OBUF window. -/
theorem byteAddr_obuf {i : Nat} (h : i < Config.bufBytes) :
    isByteAddr (obufBase + i) = true ∧ inObuf (obufBase + i) = true := by
  simp only [isByteAddr, inObuf, Bool.or_eq_true, Bool.and_eq_true, decide_eq_true_eq]
  unfold keybufBase ivbufBase ibufBase obufBase at *
  omega

/-- Everything a host write can do (20_memory R43, R44, R61; 70_reset R184 c). -/
theorem hostWrite_cases (s : State) (a v : Word) :
    (hostWrite s a v = .next s) ∨
    (s.busy = false ∧ locate a = .cmd ∧ hostWrite s a v = issue v s) ∨
    (s.busy = false ∧ ∃ k i n, hostWrite s a v = .next { s with klen := k, ivlen := i, ilen := n }) ∨
    (s.busy = false ∧ ∃ n, Writable n ∧ a.toNat = n ∧ hostWrite s a v = .next { s with mem := s.mem.write n (v.setWidth 8) }) := by
  unfold hostWrite
  cases hb : s.busy
  · cases hl : locate a with
    | cmd => exact .inr (.inl ⟨rfl, rfl, rfl⟩)
    | klen => exact .inr (.inr (.inl ⟨rfl, v, s.ivlen, s.ilen, rfl⟩))
    | ivlen => exact .inr (.inr (.inl ⟨rfl, s.klen, v, s.ilen, rfl⟩))
    | ilen => exact .inr (.inr (.inl ⟨rfl, s.klen, s.ivlen, v, rfl⟩))
    | keybuf i =>
      obtain ⟨h, h'⟩ := locate_eq_keybuf.1 hl
      exact .inr (.inr (.inr ⟨rfl, _, writable_keybuf h, h', rfl⟩))
    | ivbuf i =>
      obtain ⟨h, h'⟩ := locate_eq_ivbuf.1 hl
      exact .inr (.inr (.inr ⟨rfl, _, writable_ivbuf h, h', rfl⟩))
    | ibuf i =>
      obtain ⟨h, h'⟩ := locate_eq_ibuf.1 hl
      exact .inr (.inr (.inr ⟨rfl, _, writable_ibuf h, h', rfl⟩))
    | status => exact .inl rfl
    | olen => exact .inl rfl
    | rk i => exact .inl rfl
    | obuf i => exact .inl rfl
    | unmapped => exact .inl rfl
  · exact .inl rfl

/-- A read of a busy core (70_reset R184 a, b). -/
theorem hostRead_busy {s : State} (h : s.busy = true) (a : Word) :
    hostRead s a = if locate a = .status then statusWord s else 0 := if_pos h

/-- A read of a core that is not busy. -/
theorem hostRead_idle {s : State} (h : s.busy = false) (a : Word) : hostRead s a = idleRead s a :=
  if_neg (by simp [h])

/-- Bit 0 of STATUS is BUSY (30_encoding R67). -/
theorem statusWord_bit0 (s : State) : (statusWord s).getLsbD 0 = s.busy := by
  unfold statusWord
  cases s.busy <;> cases s.keyed <;> cases s.err <;> rfl

/-- A read of STATUS gives STATUS in every state. -/
theorem hostRead_status (s : State) : hostRead s (addr .status) = statusWord s := by
  have h := locate_addr.2.1
  unfold hostRead idleRead
  rw [h]
  simp

/-- WAIT: pending while BUSY = 1, done when it reads 0 (30_encoding R69). -/
theorem waitOnce_eq (s : State) :
    waitOnce s = if s.busy then { s with rdata := statusWord s, script := .wait :: s.script }
      else { s with rdata := statusWord s } := by
  unfold waitOnce
  dsimp only
  rw [hostRead_status, statusWord_bit0]

end Sys2Proof.Machine
end

