-- ==== Sys2Proof/Laws/Sequencer.lean ====
section
/-! SUPPORT. Everything the hidden sequencer can change (70_reset R184 d; 42_key_schedule R112, 43_block_core R126,
44_cbc_wrapper R149). -/

namespace Sys2Proof.Machine

/-- Clearing OBUF forgets a run of writes into OBUF. -/
theorem Memory.clearObuf_writeBytes (m : Memory) {base : Nat} {vs : List Byte} (h1 : obufBase ≤ base)
    (h2 : base + vs.length ≤ obufBase + Config.bufBytes) : (m.writeBytes base vs).clearObuf = m.clearObuf := by
  induction vs generalizing m base with
  | nil => rfl
  | cons v vs ih =>
    rw [List.length_cons] at h2
    rw [Memory.writeBytes, ih _ (by omega) (by omega), Memory.clearObuf_write _ _ (inObuf_iff.2 ⟨by omega, by omega⟩)]

/-- Rewriting OBUF depends on nothing but what lies outside OBUF. -/
theorem Memory.setObuf_congr {m m' : Memory} (h : m.clearObuf = m'.clearObuf) (out : List Byte) :
    m.setObuf out = m'.setObuf out := by
  rw [Memory.setObuf, Memory.setObuf, h]

/-- The byte locations change in OBUF alone. -/
structure ObufOnly (m m' : Memory) : Prop where
  read : ∀ n, inObuf n = false → m'.read n = m.read n
  clear : m'.clearObuf = m.clearObuf
  wf : m.wf → m'.wf
  byteAddr : (∀ c ∈ m, isByteAddr c.1 = true) → ∀ c ∈ m', isByteAddr c.1 = true

theorem ObufOnly.refl (m : Memory) : ObufOnly m m := ⟨fun _ _ => rfl, rfl, id, id⟩

theorem ObufOnly.trans {m m' m'' : Memory} (h : ObufOnly m m') (h' : ObufOnly m' m'') : ObufOnly m m'' :=
  ⟨fun n hn => (h'.read n hn).trans (h.read n hn), h'.clear.trans h.clear, h'.wf ∘ h.wf, h'.byteAddr ∘ h.byteAddr⟩

/-- A run of bytes written into OBUF. -/
theorem ObufOnly.writeBytes (m : Memory) {i : Nat} {vs : List Byte} (h : i + vs.length ≤ Config.bufBytes) :
    ObufOnly m (m.writeBytes (obufBase + i) vs) := by
  refine ⟨fun n hn => ?_, Memory.clearObuf_writeBytes m (by omega) (by omega), fun hm => Memory.wf_writeBytes hm _ _, ?_⟩
  · refine Memory.read_writeBytes_out ?_
    by_contra hc
    have := (inObuf_iff (n := n)).2 ⟨by omega, by omega⟩
    simp [hn] at this
  · intro hm c hc
    rcases Memory.mem_writeBytes hc with hc | ⟨h1, h2⟩
    · exact hm c hc
    · have := (byteAddr_obuf (i := c.1 - obufBase) (by omega)).1
      rwa [show obufBase + (c.1 - obufBase) = c.1 by omega] at this

/-- What the sequencer may have done between `s` and `t`: the hidden words, the position within its bounds, bytes of OBUF and,
in an INIT whose checks pass, RK. -/
structure InFlight (s t : State) : Prop where
  mem : ObufOnly s.mem t.mem
  klen : t.klen = s.klen
  ivlen : t.ivlen = s.ivlen
  ilen : t.ilen = s.ilen
  olen : t.olen = s.olen
  key : t.key = s.key
  iv : t.iv = s.iv
  rk : t.rk = s.rk ∨ (decode s.cmd = .ok .init ∧ initCheck s = .ok)
  busy : t.busy = s.busy
  keyed : t.keyed = s.keyed
  err : t.err = s.err
  phase : t.seq.phase = s.seq.phase
  rnd : s.seq.rnd < 16 → t.seq.rnd < 16
  blk : s.seq.blk < Config.bufBytes / 16 → t.seq.blk < Config.bufBytes / 16
  cmd : t.cmd = s.cmd
  left : t.left = s.left
  grain : t.grain = s.grain
  script : t.script = s.script
  rdata : t.rdata = s.rdata

theorem InFlight.refl (s : State) : InFlight s s :=
  ⟨.refl _, rfl, rfl, rfl, rfl, rfl, rfl, .inl rfl, rfl, rfl, rfl, rfl, id, id, rfl, rfl, rfl, rfl, rfl⟩

theorem InFlight.initCheck {s t : State} (h : InFlight s t) : initCheck t = initCheck s := by
  unfold Machine.initCheck; rw [h.keyed, h.klen, h.ivlen]

theorem InFlight.blockCheck {s t : State} (h : InFlight s t) : blockCheck t = blockCheck s := by
  unfold Machine.blockCheck; rw [h.keyed, h.ilen]

theorem InFlight.cbcencCheck {s t : State} (h : InFlight s t) : cbcencCheck t = cbcencCheck s := by
  unfold Machine.cbcencCheck; rw [h.keyed, h.ilen]

theorem InFlight.cbcdecCheck {s t : State} (h : InFlight s t) : cbcdecCheck t = cbcdecCheck s := by
  unfold Machine.cbcdecCheck; rw [h.keyed, h.ilen]

theorem InFlight.commandCheck {s t : State} (h : InFlight s t) (i : Instr) : commandCheck i t = commandCheck i s := by
  cases i
  exacts [h.initCheck, h.blockCheck, h.blockCheck, h.cbcencCheck, h.cbcdecCheck]

theorem InFlight.trans {s t u : State} (h : InFlight s t) (h' : InFlight t u) : InFlight s u where
  mem := h.mem.trans h'.mem
  klen := h'.klen.trans h.klen
  ivlen := h'.ivlen.trans h.ivlen
  ilen := h'.ilen.trans h.ilen
  olen := h'.olen.trans h.olen
  key := h'.key.trans h.key
  iv := h'.iv.trans h.iv
  rk := by
    rcases h'.rk with h1 | ⟨h1, h2⟩
    · rcases h.rk with h3 | h3
      · exact .inl (h1.trans h3)
      · exact .inr h3
    · exact .inr ⟨h.cmd ▸ h1, h.initCheck ▸ h2⟩
  busy := h'.busy.trans h.busy
  keyed := h'.keyed.trans h.keyed
  err := h'.err.trans h.err
  phase := h'.phase.trans h.phase
  rnd := h'.rnd ∘ h.rnd
  blk := h'.blk ∘ h.blk
  cmd := h'.cmd.trans h.cmd
  left := h'.left.trans h.left
  grain := h'.grain.trans h.grain
  script := h'.script.trans h.script
  rdata := h'.rdata.trans h.rdata

/-- The operands of a command in progress do not change (44_cbc_wrapper R149: IBUF is not written). -/
theorem readBytes_obufOnly {m m' : Memory} (h : ObufOnly m m') {base n : Nat}
    (hb : ∀ i, i < n → inObuf (base + i) = false) : m'.readBytes base n = m.readBytes base n :=
  readBytes_congr fun i hi => h.read _ (hb i hi)

theorem InFlight.keyInput {s t : State} (h : InFlight s t) : keyInput t = keyInput s :=
  congrArg Block.ofBytes (readBytes_obufOnly h.mem fun _ hi => (writable_keybuf hi).2)

theorem InFlight.ivInput {s t : State} (h : InFlight s t) : ivInput t = ivInput s :=
  congrArg Block.ofBytes (readBytes_obufOnly h.mem fun _ hi => (writable_ivbuf hi).2)

theorem InFlight.blockInput {s t : State} (h : InFlight s t) : blockInput t = blockInput s :=
  congrArg Block.ofBytes (readBytes_obufOnly h.mem fun _ hi => (writable_ibuf (by rw [map_values.2.2.2.2.2]; omega)).2)

theorem InFlight.bufferInput {s t : State} (h : InFlight s t) (hl : s.ilen.toNat ≤ Config.bufBytes) :
    bufferInput t = bufferInput s := by
  unfold Machine.bufferInput
  rw [h.ilen]
  exact readBytes_obufOnly h.mem fun _ hi => (writable_ibuf (by omega)).2

/-- A change of memory within OBUF, of CHAIN and of the position. -/
theorem InFlight.update (s : State) {m : Memory} {c : Block} {q : Seq} (hm : ObufOnly s.mem m)
    (hp : q.phase = s.seq.phase) (hr : q.rnd < 16)
    (hb : s.seq.blk < Config.bufBytes / 16 → q.blk < Config.bufBytes / 16) :
    InFlight s { s with mem := m, chain := c, seq := q } :=
  ⟨hm, rfl, rfl, rfl, rfl, rfl, rfl, .inl rfl, rfl, rfl, rfl, hp, fun _ => hr, hb, rfl, rfl, rfl, rfl, rfl⟩

/-- A change of the hidden halves. -/
theorem InFlight.halves (s : State) (h : Halves) : InFlight s (s.setHalves h) :=
  ⟨.refl _, rfl, rfl, rfl, rfl, rfl, rfl, .inl rfl, rfl, rfl, rfl, rfl, id, id, rfl, rfl, rfl, rfl, rfl⟩

/-- Loading a block changes the hidden halves alone. -/
theorem cbcLoad_inFlight (i : Instr) (b : Nat) (s : State) : InFlight s (cbcLoad i b s) := by
  cases i <;> exact InFlight.halves s _

/-- The end of a block that is not the last. -/
theorem cbcBlockEnd_inFlight {s s' : State} (i : Instr) (hb : s'.seq.blk + 1 < Config.bufBytes / 16)
    (h : InFlight s s') : InFlight s (cbcBlockEnd i s') := by
  refine h.trans (InFlight.trans (InFlight.update s' (q := ⟨s'.seq.phase, 0, s'.seq.blk + 1⟩) ?_ rfl
    (by show 0 < 16; omega) fun _ => hb) (cbcLoad_inFlight i _ _))
  exact ObufOnly.writeBytes _ (by rw [length_toBytes]; omega)

/-- LAT is at least 1 (70_reset R190). -/
theorem latency_pos (i : Instr) (s : State) : 1 ≤ latency i s := by
  cases i <;> simp only [latency] <;> omega

/-- Everything the acceptance of a command does, but for the hidden words it loads. -/
theorem accept_effect (i : Instr) (w : Word) (s : State) :
    (accept i w s).busy = true ∧ (accept i w s).cmd = w ∧ (accept i w s).left = latency i s ∧
      (accept i w s).seq = ⟨phaseOf i, 0, 0⟩ ∧
      InFlight { s with busy := true, cmd := w, left := latency i s, seq := ⟨phaseOf i, 0, 0⟩ } (accept i w s) ∧
      (accept i w s).rk = s.rk ∧ (accept i w s).mem = s.mem := by
  unfold accept
  split
  · cases i
    · exact ⟨rfl, rfl, rfl, rfl,
        ⟨.refl _, rfl, rfl, rfl, rfl, rfl, rfl, .inl rfl, rfl, rfl, rfl, rfl, id, id, rfl, rfl, rfl, rfl, rfl⟩, rfl, rfl⟩
    all_goals exact ⟨rfl, rfl, rfl, rfl,
      ⟨.refl _, rfl, rfl, rfl, rfl, rfl, rfl, .inl rfl, rfl, rfl, rfl, rfl, id, id, rfl, rfl, rfl, rfl, rfl⟩, rfl, rfl⟩
  · exact ⟨rfl, rfl, rfl, rfl, .refl _, rfl, rfl⟩

/-- One round of a command whose checks pass, which is not its last. -/
theorem seqRound_inFlight {i : Instr} {s : State} (hd : decode s.cmd = .ok i) (hc : commandCheck i s = .ok)
    (hl : seqAtLast i s = false) : InFlight s (seqRound i s) := by
  have hb := map_values.2.2.2.2.2
  simp only [seqAtLast, Bool.and_eq_false_iff, decide_eq_false_iff_not, Nat.not_le] at hl
  have blkop : ∀ j, blockCount j s = 1 → (s.seq.rnd < 15 ∨ s.seq.blk + 1 < blockCount j s) →
      InFlight s (blkRound j s) := fun j h1 h2 =>
    ⟨.refl _, rfl, rfl, rfl, rfl, rfl, rfl, .inl rfl, rfl, rfl, rfl, rfl,
      fun _ => by rw [blkRound_seq]; show s.seq.rnd + 1 < 16; omega, id, rfl, rfl, rfl, rfl, rfl⟩
  have cbc : ∀ j, blockCount j s ≤ Config.bufBytes / 16 → (s.seq.rnd < 15 ∨ s.seq.blk + 1 < blockCount j s) →
      InFlight s (cbcRound j s) := by
    intro j h1 h2
    unfold cbcRound
    split
    · exact (InFlight.halves s _).trans (InFlight.update _ (.refl _) (q := ⟨_, _, _⟩) rfl (by show s.seq.rnd + 1 < 16; omega) id)
    · exact cbcBlockEnd_inFlight _ (by show s.seq.blk + 1 < _; omega) (InFlight.halves s _)
  cases i with
  | init =>
    exact ⟨.refl _, rfl, rfl, rfl, rfl, rfl, rfl, .inr ⟨hd, hc⟩, rfl, rfl, rfl, rfl,
      fun _ => by show s.seq.rnd + 1 < 16; simp only [blockCount] at hl; omega, id, rfl, rfl, rfl, rfl, rfl⟩
  | encblk => exact blkop _ rfl hl
  | decblk => exact blkop _ rfl hl
  | cbcenc =>
    have := (Safety.cbcencCheck_ok.1 hc).2
    exact cbc _ (by simp only [blockCount]; omega) hl
  | cbcdec =>
    have := (Safety.cbcdecCheck_ok.1 hc).2.1
    exact cbc _ (by simp only [blockCount]; omega) hl

/-- Everything one step of the sequencer can change. -/
theorem microStep_inFlight (s : State) : InFlight s (microStep s) := by
  unfold microStep
  cases hd : decode s.cmd with
  | error e => exact .refl s
  | ok i =>
    dsimp only
    split
    · rename_i h
      simp only [Bool.and_eq_true, decide_eq_true_eq, Bool.not_eq_true'] at h
      exact seqRound_inFlight hd h.1 h.2
    · exact .refl s

/-- Everything n steps of the sequencer can change. -/
theorem advance_inFlight (n : Nat) (s : State) : InFlight s (advance n s) := by
  induction n generalizing s with
  | zero => exact .refl s
  | succ n ih => exact (microStep_inFlight s).trans (ih _)

end Sys2Proof.Machine
end

