-- ==== Sys2Proof/Laws/Step.lean ====
section
/-! SUPPORT. Every command and every step answers a next state, and everything a step can do. -/

namespace Sys2Proof.Machine

open Sys2Proof.Safety

/-- Every command in every state answers a next state (70_reset R191). -/
theorem exec_next (i : Instr) (s : State) : ∃ t, exec i s = .next t := by
  rcases exec_cases i s with ⟨_, -, h⟩ | h | ⟨-, -, h⟩ | ⟨_, -, h⟩ | ⟨_, -, -, h⟩ | ⟨_, -, -, h⟩ <;> exact ⟨_, h⟩

/-- After a command the core is not busy (70_reset R184 e). -/
theorem exec_idle {i : Instr} {s t : State} (h : exec i s = .next t) : Idle t := by
  rcases exec_cases i s with ⟨_, -, h'⟩ | h' | ⟨-, -, h'⟩ | ⟨_, -, h'⟩ | ⟨_, -, -, h'⟩ | ⟨_, -, -, h'⟩ <;>
    (rw [h'] at h; cases h; exact complete_idle ..)

/-- Everything a write to CMD can do: an illegal word, a command completed, a command accepted. -/
theorem issue_cases (w : Word) (s : State) :
    (issue w s = .next (fail .invalidCommand s)) ∨
    (∃ i, decode w = .ok i ∧ s.grain = .command ∧ issue w s = exec i s) ∨
    (∃ i, decode w = .ok i ∧ s.grain = .timed ∧ issue w s = .next (accept i w s)) := by
  unfold issue
  cases hd : decode w with
  | error e => exact .inl rfl
  | ok i =>
    cases hg : s.grain with
    | command => exact .inr (.inl ⟨i, rfl, rfl, rfl⟩)
    | timed => exact .inr (.inr ⟨i, rfl, rfl, rfl⟩)

/-- At the command-atomic level the host's next action issues `i` (30_encoding R61). -/
def Issued (i : Instr) (s : State) : Prop :=
  s.busy = false ∧ s.grain = .command ∧
    ∃ a w rest, s.script = .wr a w :: rest ∧ locate a = .cmd ∧ decode w = .ok i

/-- `i` is in progress in its last time unit (70_reset R184 e). -/
def Ending (i : Instr) (s : State) : Prop := s.busy = true ∧ s.left ≤ 1 ∧ decode s.cmd = .ok i

/-- What a step does, from the state `s` with its script shortened and a value read: the effects of the machine by name. -/
inductive Effect (s t : State) : Prop where
  /-- Nothing but the host's own fields: no action, a read, an ignored write, a WAIT. -/
  | port (r : List HostAction) (v : Word) (h : t = { s with script := r, rdata := v })
  /-- RESET. -/
  | reset (r : List HostAction) (hs : s.script = .reset :: r) (h : t = { State.reset with script := r, grain := s.grain })
  /-- A write of a length register. -/
  | length (r : List HostAction) (k i n : Word) (hb : s.busy = false)
      (h : t = { s with script := r, klen := k, ivlen := i, ilen := n })
  /-- A write of a byte location. -/
  | byte (r : List HostAction) (n : Nat) (v : Byte) (hb : s.busy = false) (hn : Writable n)
      (h : t = { s with script := r, mem := s.mem.write n v })
  /-- An illegal command word, or a latched word that is no command. -/
  | illegal (r : List HostAction) (v : Word) (hc : s.busy = false ∨ (s.busy = true ∧ ∃ e, decode s.cmd = .error e))
      (h : t = fail .invalidCommand { s with script := r, rdata := v })
  /-- A command completes. -/
  | command (i : Instr) (r : List HostAction) (v : Word) (hc : Issued i s ∨ Ending i s)
      (h : exec i { s with script := r, rdata := v } = .next t)
  /-- A command is accepted at the finer level. -/
  | accepted (i : Instr) (w : Word) (r : List HostAction) (hb : s.busy = false) (hg : s.grain = .timed)
      (hd : decode w = .ok i) (h : t = accept i w { s with script := r })
  /-- A time unit of a busy core that is not the command's last. -/
  | tick (r : List HostAction) (v : Word) (hb : s.busy = true) (hl : 1 < s.left)
      (h : InFlight { s with script := r, rdata := v, left := s.left - 1 } t)

/-- Everything one host action can do on a core that is not busy. -/
theorem act_idle {s t : State} {x : HostAction} {rest : List HostAction} (hb : s.busy = false) (hs : s.script = x :: rest)
    (h : act x { s with script := rest } = .next t) : Effect s t := by
  cases x with
  | reset => cases h; exact .reset rest hs rfl
  | rd a => cases h; exact .port rest _ rfl
  | wait =>
    cases h
    refine .port rest (statusWord { s with script := rest }) ?_
    rw [waitOnce_eq]
    simp [hb]
  | wr a v =>
    simp only [act] at h
    rcases hostWrite_cases { s with script := rest } a v with hw | ⟨-, hl, hw⟩ | ⟨-, k, i, n, hw⟩ | ⟨-, n, hn, -, hw⟩ <;>
      rw [hw] at h
    · cases h; exact .port rest s.rdata rfl
    · rcases issue_cases v { s with script := rest } with hi | ⟨i, hd, hg, hi⟩ | ⟨i, hd, hg, hi⟩ <;> rw [hi] at h
      · cases h; exact .illegal rest s.rdata (.inl hb) rfl
      · exact .command i rest s.rdata (.inl ⟨hb, hg, a, v, rest, hs, hl, hd⟩) h
      · cases h; exact .accepted i v rest hb hg hd rfl
    · cases h; exact .length rest k i n hb rfl
    · cases h; exact .byte rest n _ hb hn rfl

/-- Everything the host's part of a time unit of a busy core can do. -/
theorem hostTurn_cases {s t : State} (hb : s.busy = true) (h : hostTurn s = .next t) :
    (∃ r v, t = { s with script := r, rdata := v }) ∨
      ∃ r, s.script = .reset :: r ∧ t = { State.reset with script := r, grain := s.grain } := by
  unfold hostTurn at h
  split at h
  · cases h; exact .inl ⟨s.script, s.rdata, rfl⟩
  · rename_i x rest hs
    split at h
    · cases x with
      | reset => cases h; exact .inr ⟨rest, hs, rfl⟩
      | rd a => cases h; exact .inl ⟨rest, _, rfl⟩
      | wait =>
        cases h
        refine .inl ⟨.wait :: rest, statusWord { s with script := rest }, ?_⟩
        rw [waitOnce_eq]
        simp [hb]
      | wr a v =>
        simp only [act] at h
        rw [show hostWrite { s with script := rest } a v = .next { s with script := rest } from if_pos hb] at h
        cases h
        exact .inl ⟨rest, s.rdata, rfl⟩
    · cases h; exact .inl ⟨s.script, s.rdata, rfl⟩

/-- The host's part of a time unit always answers a next state. -/
theorem hostTurn_next {s : State} (hb : s.busy = true) : ∃ t, hostTurn s = .next t := by
  unfold hostTurn
  split
  · exact ⟨_, rfl⟩
  · split
    · rename_i x rest hs _
      cases x with
      | wr a v => exact ⟨_, if_pos hb⟩
      | _ => exact ⟨_, rfl⟩
    · exact ⟨_, rfl⟩

/-- Everything a step can do. -/
theorem step_cases {s t : State} (h : step s = .next t) : Effect s t := by
  unfold step at h
  cases hb : s.busy with
  | false =>
    rw [if_neg (by simp [hb])] at h
    unfold idleUnit at h
    split at h
    · cases h; exact .port s.script s.rdata rfl
    · rename_i x rest hs
      exact act_idle hb hs h
  | true =>
    simp only [hb, if_true, busyUnit] at h
    obtain ⟨s', hs'⟩ := hostTurn_next hb
    rw [hs'] at h
    dsimp only at h
    rcases hostTurn_cases hb hs' with ⟨r, v, rfl⟩ | ⟨r, hs, rfl⟩
    · rw [if_pos hb] at h
      unfold coreTurn at h
      split at h
      · rename_i hl
        unfold endCommand at h
        cases hd : decode s.cmd with
        | ok i =>
          rw [hd] at h
          exact .command i r v (.inr ⟨hb, hl, hd⟩) h
        | error e =>
          rw [hd] at h
          cases h
          exact .illegal r v (.inr ⟨hb, e, hd⟩) rfl
      · rename_i hl
        cases h
        exact .tick r v hb (Nat.lt_of_not_le hl) (advance_inFlight _ _)
    · cases h
      exact .reset r hs rfl

end Sys2Proof.Machine
end

