-- ==== Sys2Proof/Tests/Slice0.lean ====
section
/-! SUPPORT. Tests whose expected results are the spec's own (30_encoding, 40_constant_tables, 95_test_vectors), and one witness
for every statement that has hypotheses. -/

namespace Sys2Proof.Tests

open Sys2Proof Sys2Proof.Machine Sys2Proof.Safety

set_option Elab.async false

/- Helpers -/

/-- A core keyed with (k, v), `inp` in IBUF and its length in ILEN (70_reset R195). -/
def keyedWith (k v : Block) (inp : List Byte) : State :=
  { State.reset with
    key := k
    iv := v
    rk := keySchedule tables k
    keyed := true
    mem := State.reset.mem.writeBytes ibufBase inp
    ilen := BitVec.ofNat 32 inp.length }

/-- A fresh core with key and IV staged (70_reset R183, steps 1 and 2). -/
def staged (k v : List Byte) : State :=
  { State.reset with
    mem := (State.reset.mem.writeBytes keybufBase k).writeBytes ivbufBase v
    klen := BitVec.ofNat 32 k.length
    ivlen := BitVec.ofNat 32 v.length }

/-- The state a command answers. -/
def after (i : Instr) (s : State) : State :=
  match exec i s with
  | .next t => t
  | _ => s

theorem exec_after (i : Instr) (s : State) : exec i s = .next (after i s) := by
  obtain ⟨t, h⟩ := exec_next i s
  rw [after, h]

/-- STATUS.ERR, OLEN and OBUF[0..OLEN-1] of a state. -/
def result (s : State) : ErrorKind × Nat × List Byte :=
  (s.err, s.olen.toNat, s.mem.readBytes obufBase s.olen.toNat)

/-- The state after one step. -/
def stepped (s : State) : State :=
  match step s with
  | .next t => t
  | _ => s

/-- K1 = 00 01 .. 0F and IV1 = 10 11 .. 1F (95_test_vectors). -/
def k1 : Block := 0x000102030405060708090A0B0C0D0E0F
def iv1 : Block := 0x101112131415161718191A1B1C1D1E1F

/-- "ABCDEFGHIJKLMNO" followed by a byte: the sequences of 95_test_vectors section 7. -/
def q15 (b : Byte) : List Byte := Block.toBytes 0x4142434445464748494A4B4C4D4E4F00 |>.take 15 |>.append [b]

/- WellFormed: an ill-formed term for each check -/

/-- R60, R64: a word with a bit of `zero` set, op 00, op 06: each refused; a legal one accepted. -/
theorem test_wordLegal : wordLegal 0x00000101 = false ∧ wordLegal 0 = false ∧ wordLegal 6 = false ∧ wordLegal 0x80000001 = false ∧
    wordLegal 5 = true := by decide

/-- Every constructor is well-formed: it has no field to be ill-formed in (R60). -/
theorem test_instr_wf : [Instr.init, .encblk, .decblk, .cbcenc, .cbcdec].all Instr.wf = true := by decide

/-- R70: an access between a CMD write and the WAIT that follows it is refused; `RD STATUS` and RESET are allowed there. -/
theorem test_scriptWf :
    scriptWf true [.wr 0 1, .rd 5] = false ∧ scriptWf true [.wr 0 1, .wr 4 1] = false ∧ scriptWf true [.wr 0 1, .wr 0 1] = false ∧
      scriptWf false [.rd 5] = false ∧ scriptWf true [.wr 0 1, .rd 1, .wait, .rd 5] = true ∧
      scriptWf true [.wr 0 1, .reset, .rd 5] = true := by decide

/- Decoding: words written out bit by bit from 30_encoding R60, R62 -/

theorem test_decode_init : decode 0b00000000000000000000000000000001#32 = .ok .init := by decide
theorem test_decode_encblk : decode 0b00000000000000000000000000000010#32 = .ok .encblk := by decide
theorem test_decode_decblk : decode 0b00000000000000000000000000000011#32 = .ok .decblk := by decide
theorem test_decode_cbcenc : decode 0b00000000000000000000000000000100#32 = .ok .cbcenc := by decide
theorem test_decode_cbcdec : decode 0b00000000000000000000000000000101#32 = .ok .cbcdec := by decide

/-- R64's own examples of illegal words. -/
theorem test_decode_illegal :
    [0x00000000, 0x00000006, 0x000000FF, 0x00000101, 0x00000104, 0xFFFFFFFF].all
      (fun w : Word => match decode w with | .ok _ => false | .error _ => true) = true := by decide

/-- The rows of the opcode table do not overlap (R74). -/
theorem test_rows_disjoint :
    opcodeTable.Pairwise fun r r' => r.pattern &&& r'.mask ≠ r'.pattern ∧ r.pattern &&& r.mask = r.pattern := by decide

theorem test_decodeTableWord :
    decodeTableWord 32 4 = some .cbcenc ∧ decodeTableWord 32 0x104 = none ∧ decodeTableWord 8 5 = some .cbcdec := by decide

/-- A placed command word is what the very next step runs. -/
theorem test_withFetchWord : step (State.reset.withFetchWord 32 2) = exec .encblk State.reset := rfl

/- Tables -/

/-- R81, R82: entries read off the tables of 40_constant_tables. -/
theorem test_sboxes :
    tables.s1 0 = 0xA9 ∧ tables.s1 0xFF = 0x9A ∧ tables.s2 0 = 0x38 ∧ tables.s2 0xFF = 0xB7 ∧
      tables.s1 0x12 = 0x20 ∧ tables.s2 0x34 = 0xA5 := by decide +kernel

/-- R81, R82, R86: the sums and XORs the spec gives of all entries. -/
theorem test_table_checks :
    ((List.range 256).map fun k => (k + 1) * (tables.s1 (BitVec.ofNat 8 k)).toNat).sum % 65521 = 57892 ∧
      ((List.range 256).map fun k => (k + 1) * (tables.s2 (BitVec.ofNat 8 k)).toNat).sum % 65521 = 33448 ∧
      ((List.range 16).foldl (fun x k => x ^^^ tables.kc k) 0) = 0x5D7A5D7A ∧
      ((List.range 16).foldl (fun x k => x + tables.kc k) 0) = 0xDB822474 := by decide +kernel

/-- R85: SS0[00], SS0[FF], SS1[00], SS1[FF]. -/
theorem test_ss :
    ss0 tables 0 = 0x2989A1A8 ∧ ss0 tables 0xFF = 0x1A8A9298 ∧ ss1 tables 0 = 0x38380830 ∧ ss1 tables 0xFF = 0xB43787B3 := by
  decide +kernel

/-- 95_test_vectors section 3. -/
theorem test_g :
    g tables 0x00000000 = 0xB829B829 ∧ g tables 0x00000001 = 0x94259805 ∧ g tables 0x00000100 = 0x683978F9 ∧
      g tables 0x12345678 = 0x15F5FAFF ∧ g tables 0xDEADBEEF = 0xC407179A := by decide +kernel

/-- 95_test_vectors section 4, rows 2, 3, 6, 8. -/
theorem test_f :
    f tables 1 0 0 0 = (0x89F0B93B, 0x1CA17A3D) ∧ f tables 0 1 0 0 = (0xECF52313, 0x902693C5) ∧
      f tables 0xFFFFFFFF 0xFFFFFFFF 0 0 = (0xB4F0C1C6, 0x255FFA25) ∧
      f tables 0x12345678 0x9ABCDEF0 0x0F1E2D3C 0x4B5A6978 = (0xD5278637, 0x94DE2722) := by decide +kernel

/-- 95_test_vectors section 5: the first and last pair of the zero key and of K1, and K1's working words at rounds 1, 2, 15. -/
theorem test_keySchedule :
    (let r := keySchedule tables 0; (rkAt r 0, rkAt r 1, rkAt r 30, rkAt r 31)) = (0x7C8F8C7E, 0xC737A22C, 0x71891150, 0x98B255B0) ∧
    (let r := keySchedule tables k1; (rkAt r 0, rkAt r 1, rkAt r 2, rkAt r 31)) = (0xC119F584, 0x5AE033A0, 0x62947390, 0xA4EF9F9B) := by
  decide +kernel

theorem test_keyWords :
    keyWordsAt k1 1 = ⟨0x07000102, 0x03040506, 0x08090A0B, 0x0C0D0E0F⟩ ∧
      keyWordsAt k1 2 = ⟨0x07000102, 0x03040506, 0x090A0B0C, 0x0D0E0F08⟩ ∧
      keyWordsAt k1 15 = ⟨0x00010203, 0x04050607, 0x0F08090A, 0x0B0C0D0E⟩ := by decide

/-- 95_test_vectors section 6: vector B1 after round 0. -/
theorem test_round :
    (feistelRound tables (0x7C8F8C7E, 0xC737A22C) (Halves.load k1)).swap =
      ⟨0x08090A0B, 0x0C0D0E0F, 0x8081BC57, 0xC4EA8A1F⟩ := by decide +kernel

/-- Vectors B7, B8. -/
theorem test_avalanche :
    encryptBlock tables (keySchedule tables k1) (0x80000000000000000000000000000000) = 0x58844BC0C53AACF808587A7C35C37DE2 ∧
      encryptBlock tables (keySchedule tables 0x80000000000000000000000000000000) 0 = 0x4830626EF57F0946654E1CE4C2DDDC6F := by
  decide +kernel

/- Pad and Unpad, 95_test_vectors section 7 -/

theorem test_pad :
    pad [] = List.replicate 16 0x10 ∧ pad [0x41] = 0x41 :: List.replicate 15 0x0F ∧
      pad (List.replicate 16 0x10) = List.replicate 32 0x10 := by decide

theorem test_unpad_ok :
    unpad (q15 0x01) = .ok ((q15 0x01).take 15) ∧ unpad (List.replicate 16 0x10) = .ok [] := by decide

theorem test_unpad_bad :
    unpad (q15 0x00) = .error .invalidPadding ∧ unpad (q15 0x11) = .error .invalidPadding ∧
      unpad (q15 0x02) = .error .invalidPadding ∧ unpad (0x0F :: List.replicate 15 0x10) = .error .invalidPadding := by decide

/- One step of each command -/

/-- INIT with K1, IV1 staged: KEYED, the schedule of K1 readable at RK, STATUS = 2 (95_test_vectors section 5, 30_encoding R67). -/
theorem test_init :
    (let t := after .init (staged k1.toBytes iv1.toBytes)
     (hostRead t 1, hostRead t 0x40, hostRead t 0x5F, t.key, t.iv)) = (2, 0xC119F584, 0xA4EF9F9B, k1, iv1) := by decide +kernel

/-- INIT with a key of 15 bytes and an IV of 3: the key is reported (60_exceptions R167), nothing is latched. -/
theorem test_init_short :
    (let t := after .init (staged (k1.toBytes.take 15) (iv1.toBytes.take 3))
     (hostRead t 1, t.keyed, t.key)) = (0x10, false, 0) := by decide +kernel

/-- ENCBLK, vector B1. -/
theorem test_encblk :
    result (after .encblk (keyedWith 0 0 k1.toBytes)) =
      (.ok, 16, Block.toBytes 0x5EBAC6E0054E166819AFF1CC6D346CDB) := by decide +kernel

/-- ENCBLK with ILEN = 17: InvalidBlockSize, STATUS = 32h. -/
theorem test_encblk_length :
    hostRead (after .encblk (keyedWith 0 0 (0 :: k1.toBytes))) 1 = 0x32 := by decide +kernel

/-- DECBLK, vector B2 backwards. -/
theorem test_decblk :
    result (after .decblk (keyedWith k1 0 (Block.toBytes 0xC11F22F20140505084483597E4370F43))) =
      (.ok, 16, Block.toBytes 0) := by decide +kernel

/-- DECBLK in an unkeyed core: InvalidState, STATUS = 60h. -/
theorem test_decblk_unkeyed : hostRead (after .decblk State.reset) 1 = 0x60 := by decide +kernel

/-- CBCENC of 41 under K1, IV1 (95_test_vectors section 7). -/
theorem test_cbcenc :
    result (after .cbcenc (keyedWith k1 iv1 [0x41])) =
      (.ok, 16, Block.toBytes 0xF63C1FDD84B8A1560DC4E8A1CC147DCC) := by decide +kernel

/-- CBCENC of sixteen bytes gives two chained blocks (95_test_vectors section 7). -/
theorem test_cbcenc_chain :
    result (after .cbcenc (keyedWith 0 0 (List.replicate 16 0))) =
      (.ok, 32, Block.toBytes 0x90699DE47893701E7511196BE312AF92 ++ Block.toBytes 0x0FE63CB8EF97B76F0A40C13C062FC7D1) := by
  decide +kernel

/-- CBCDEC of a validly padded block (95_test_vectors section 8). -/
theorem test_cbcdec :
    result (after .cbcdec (keyedWith k1 iv1 (Block.toBytes 0x142CAB4B0C760C1C4CE64F04B9CC3600))) =
      (.ok, 15, (q15 0).take 15) := by decide +kernel

/-- CBCDEC of a block that decrypts to a bad pad: InvalidPadding, no output (95_test_vectors section 8). -/
theorem test_cbcdec_bad :
    result (after .cbcdec (keyedWith k1 iv1 (Block.toBytes 0x1247986BEBB11C15961D96A92CB74017))) =
      (.invalidPadding, 0, []) := by decide +kernel

/- The port -/

/-- R43, R44: the upper bits of a byte write are ignored; OBUF, RK and unmapped addresses ignore writes. -/
theorem test_port_writes :
    (let t := stepped { State.reset with script := [.wr 0x1F 0xFFFFFF5A] }
     (hostRead t 0x1F, hostRead t 0x30)) = (0x5A, 0) ∧
      [0x6, 0x1, 0x5, 0x30, 0x40, 0x20000, 0x11000, 0xFFFFFFFF].all
        (fun a => stepped { State.reset with script := [.wr a 0xFF] } == State.reset) = true := by decide +kernel

/-- R184, 95_test_vectors program P6: while BUSY = 1 STATUS reads 3 in a keyed core, other locations read 0, writes are ignored. -/
theorem test_busy :
    (let s := { keyedWith 0 0 k1.toBytes with busy := true, cmd := 4, left := 2, seq := ⟨.cbc, 0, 0⟩ }
     (hostRead s 1, hostRead s 4, hostRead s 0x10001, match hostWrite s 4 7 with | .next t => t == s | _ => false)) =
      (3, 0, 0, true) := by decide +kernel

/-- R69: WAIT on a core that is not busy is one read of STATUS. -/
theorem test_wait :
    (let t := stepped { after .decblk State.reset with script := [.wait] }
     (t.rdata, t.script)) = (0x60, []) := by decide +kernel

/-- R68: the port events of `KEY` with one byte, a command and its WAIT. -/
theorem test_events :
    portEvents (keyActions [0xAB] ++ commandActions .init) =
      ["W 00000010 000000AB", "W 00000002 00000001", "W 00000000 00000001", "R 00000001"] := by decide +kernel

/-- 10_state R20, R25, R30: in a keyed core with a result, RK[0], OLEN and CMD as a host reads them (95_test_vectors sections 5, 7). -/
theorem test_register_reads :
    (let t := after .cbcenc (keyedWith k1 iv1 [0x41])
     (hostRead t 0x40, hostRead t 0x5F, hostRead t 5, hostRead t 0)) = (0xC119F584, 0xA4EF9F9B, 16, 0) := by decide +kernel

/- Witnesses: for each statement that has hypotheses, values that meet all of them -/

/-- OpcodeMapByOp: a word for each clause and each end of the map. -/
theorem witness_OpcodeMapByOp :
    zeroField 0x101 ≠ 0 ∧ zeroField 0x80000000 ≠ 0 ∧
      [0x00, 0x01, 0x02, 0x03, 0x04, 0x05, 0x06, 0xFF].all (fun w : Word => zeroField w == 0) = true := by decide

theorem witness_IllegalWordEndsAtOnce :
    State.reset.busy = false ∧ [0, 6, 0xFF, 0x101, 0xFFFFFFFF].all (fun w => !wordLegal w) = true := by decide

/-- StepRunsDecodedCommand: a state for each clause. -/
theorem witness_StepRunsDecodedCommand :
    (let s := { State.reset with script := [.wr 0 5] }
     s.busy = false ∧ s.grain = .command ∧ s.script = .wr 0 5 :: [] ∧ locate 0 = .cmd ∧ decode 5 = .ok .cbcdec) ∧
    (let s := { State.reset with busy := true, left := 1, cmd := 1, seq := ⟨.ks, 0, 0⟩ }
     s.busy = true ∧ s.script = [] ∧ s.left ≤ 1 ∧ decode s.cmd = .ok .init) := by decide

theorem witness_TimedCommandIsAccepted :
    (let s := { State.reset with script := [.wr 0 1], grain := .timed }
     s.busy = false ∧ s.grain = .timed ∧ s.script = .wr 0 1 :: [] ∧ locate 0 = .cmd ∧ decode 1 = .ok .init) := by decide

/-- ByteLocationsHoldBytes: the first and the last address of each window; OBUF's are read-only. -/
theorem witness_ByteLocationsHoldBytes :
    State.reset.busy = false ∧ State.reset.mem.wf ∧
      [0x10, 0x1F, 0x20, 0x2F, 0x10000, 0x10FFF].all (fun a : Word => isByteAddr a.toNat && !inObuf a.toNat) = true ∧
      [0x20000, 0x20FFF].all (fun a : Word => isByteAddr a.toNat && inObuf a.toNat) = true := by decide +kernel

/-- ProtectedLocationsIgnoreWrites: an address for each alternative, unmapped ones at the edges of the windows. -/
theorem witness_ProtectedLocationsIgnoreWrites :
    [0x6, 0xF, 0x30, 0x3F, 0x60, 0xFFFF, 0x11000, 0x1FFFF, 0x21000, 0xFFFFFFFF].all
      (fun a : Word => locate a == .unmapped) = true ∧
      locate 1 = .status ∧ locate 5 = .olen ∧ locate 0x40 = .rk 0 ∧ locate 0x5F = .rk 31 ∧ locate 0x20000 = .obuf 0 ∧
      locate 0x20FFF = .obuf 4095 := by decide +kernel

/-- AddressMapRegions: the first and the last index of each window. -/
theorem witness_AddressMapRegions :
    (0x10 : Word).toNat = 0x10 + 0 ∧ (0x1F : Word).toNat = 0x10 + 15 ∧ (0x20 : Word).toNat = 0x20 + 0 ∧
      (0x2F : Word).toNat = 0x20 + 15 ∧ (0x40 : Word).toNat = 0x40 + 0 ∧ (0x5F : Word).toNat = 0x40 + 31 ∧
      (0x10000 : Word).toNat = 0x10000 + 0 ∧ (0x10FFF : Word).toNat = 0x10000 + 4095 ∧
      (0x20000 : Word).toNat = 0x20000 + 0 ∧ (0x20FFF : Word).toNat = 0x20000 + 4095 ∧ 4095 < Config.bufBytes := by decide

/-- LengthRegistersReadBack: a keyed core that is not busy, and the first and the last round-key address. -/
theorem witness_LengthRegistersReadBack :
    (keyedWith k1 iv1 []).busy = false ∧ locate 0x40 = .rk 0 ∧ locate 0x5F = .rk 31 ∧ 15 < 16 := by decide +kernel

/-- StatusLayout: a command that succeeds and one that fails. -/
theorem witness_StatusLayout :
    (exec .cbcenc (keyedWith k1 iv1 []) = .next (after .cbcenc (keyedWith k1 iv1 [])) ∧
      (after .cbcenc (keyedWith k1 iv1 [])).err = .ok) ∧
    exec .encblk (keyedWith k1 iv1 []) = .next (after .encblk (keyedWith k1 iv1 [])) ∧
      (after .encblk (keyedWith k1 iv1 [])).err ≠ .ok :=
  ⟨⟨exec_after .., by decide +kernel⟩, exec_after .., by decide +kernel⟩

/-- HiddenStateHasNoReadPath: two states that differ in KEY, IV, CHAIN and the working words. -/
theorem witness_HiddenStateHasNoReadPath :
    (let s := State.reset
     let t := { State.reset with key := 1, iv := 2, chain := 3, a := 4, l0 := 5, seq := ⟨.cbc, 1, 1⟩ }
     s ≠ t ∧ s.mem = t.mem ∧ s.klen = t.klen ∧ s.ivlen = t.ivlen ∧ s.ilen = t.ilen ∧ s.olen = t.olen ∧ s.rk = t.rk ∧
       s.busy = t.busy ∧ s.keyed = t.keyed ∧ s.err = t.err) := by decide +kernel

/-- HostWritesLeaveInstanceAndResult: a write of KLEN and one of KEYBUF. -/
theorem witness_HostWritesLeaveInstanceAndResult :
    (hostWrite State.reset 2 16 = .next { State.reset with klen := 16 } ∧ locate 2 ≠ .cmd) ∧
    hostWrite State.reset 0x10 7 = .next { State.reset with mem := [(0x10, 7)] } ∧ locate 0x10 ≠ .cmd :=
  ⟨⟨rfl, by decide⟩, rfl, by decide⟩

/-- CornerCasesOfF: two words and key words with equal mixed words. -/
theorem witness_CornerCasesOfF : (0x12345678 : Word) ^^^ 0x0F0F0F0F = 0x1D3B5977 ^^^ 0 := by decide

/-- ScheduleWords: the first and the last round. -/
theorem witness_ScheduleWords : 0 < 16 ∧ 15 < 16 := by decide

/-- InitCompletesOrFails: a state for each clause, the lengths one off. -/
theorem witness_InitCompletesOrFails :
    (let s := staged k1.toBytes iv1.toBytes
     s.keyed = false ∧ s.klen = 16 ∧ s.ivlen = 16) ∧
    (keyedWith k1 iv1 []).keyed = true ∧
    (let s := staged (k1.toBytes.take 15) iv1.toBytes
     s.keyed = false ∧ s.klen ≠ 16) ∧
    (let s := staged k1.toBytes (0 :: iv1.toBytes)
     s.keyed = false ∧ s.klen = 16 ∧ s.ivlen ≠ 16) := by decide +kernel

/-- FailedInitLatchesNothing: a keyed core, and unkeyed ones with a key of 17 bytes or an IV of 15. -/
theorem witness_FailedInitLatchesNothing :
    [keyedWith k1 iv1 [], staged (0 :: k1.toBytes) iv1.toBytes, staged k1.toBytes (iv1.toBytes.take 15)].all
      (fun s => initCheck s != .ok && !s.busy) = true ∧
      (∀ s, exec .init s = .next (after .init s)) ∧ InstanceInv (staged (0 :: k1.toBytes) iv1.toBytes) :=
  ⟨by decide +kernel, fun _ => exec_after .., fun h => by simp [staged, State.reset] at h, fun _ => ⟨rfl, rfl, .inl rfl⟩⟩

theorem witness_BlockByteOrder : k1.toBytes.length = 16 ∧ 0 < 4 ∧ 3 < 4 := by decide

/-- EncblkCompletesOrFails: a state for each clause, ILEN one off. -/
theorem witness_EncblkCompletesOrFails :
    ((keyedWith k1 iv1 k1.toBytes).keyed = true ∧ (keyedWith k1 iv1 k1.toBytes).ilen = 16) ∧ State.reset.keyed = false ∧
      (keyedWith k1 iv1 (0 :: k1.toBytes)).keyed = true ∧ (keyedWith k1 iv1 (0 :: k1.toBytes)).ilen ≠ 16 := by
  decide +kernel

/-- DecblkCompletesOrFails: a state for each clause, ILEN one off. -/
theorem witness_DecblkCompletesOrFails :
    ((keyedWith 0 0 iv1.toBytes).keyed = true ∧ (keyedWith 0 0 iv1.toBytes).ilen = 16) ∧ State.reset.keyed = false ∧
      (keyedWith 0 0 (iv1.toBytes.take 15)).keyed = true ∧ (keyedWith 0 0 (iv1.toBytes.take 15)).ilen ≠ 16 := by
  decide +kernel

/-- UnpadValidates: N = 0, N = 17, an inconsistent byte, and valid pads of 1 and of 16 bytes. -/
theorem witness_UnpadValidates :
    (q15 0 ≠ [] ∧ (q15 0).length % 16 = 0 ∧ ((q15 0).getD ((q15 0).length - 1) 0).toNat < 1) ∧
    16 < ((q15 0x11).getD ((q15 0x11).length - 1) 0).toNat ∧
    (2 = ((q15 2).getD ((q15 2).length - 1) 0).toNat ∧ ((q15 2).getD ((q15 2).length - 2) 0).toNat ≠ 2) ∧
    (1 = ((q15 1).getD ((q15 1).length - 1) 0).toNat) ∧
    (let q := List.replicate 16 (0x10 : Byte)
     16 = (q.getD (q.length - 1) 0).toNat ∧ ∀ j, j < 16 → (q.getD (q.length - (j + 1)) 0).toNat = 16) := by decide

/-- UnpadUndoesPad, second clause: a sequence that Unpad accepts. -/
theorem witness_UnpadUndoesPad : q15 1 ≠ [] ∧ (q15 1).length % 16 = 0 ∧ unpad (q15 1) = .ok ((q15 1).take 15) := by decide

/-- A state with the same instance whose IBUF and ILEN are a copy of `t`'s OBUF and OLEN. -/
def copied (s t : State) : State :=
  { s with ilen := t.olen, mem := State.reset.mem.writeBytes ibufBase (t.mem.readBytes obufBase t.olen.toNat) }

theorem witness_CbcRoundTripOnTheMachine :
    (let s := keyedWith k1 iv1 [0x41]
     let t := after .cbcenc s
     let u := copied s t
     s.keyed = true ∧ s.ilen.toNat ≤ Config.bufBytes - 1 ∧ exec .cbcenc s = .next t ∧ InstanceUnchanged s u ∧
       u.ilen = t.olen ∧ ∀ i, i < t.olen.toNat → ibufByte u i = obufByte t i) := by
  refine ⟨by decide +kernel, by decide +kernel, exec_after .., ⟨rfl, rfl, rfl, rfl⟩, rfl, ?_⟩
  intro i hi
  have h : (after .cbcenc (keyedWith k1 iv1 [0x41])).olen.toNat = 16 := by decide +kernel
  rw [h] at hi
  revert i
  decide +kernel

/-- OutputLengths: a success of each data command. -/
theorem witness_OutputLengths :
    (after .encblk (keyedWith k1 iv1 k1.toBytes)).err = .ok ∧ (after .decblk (keyedWith k1 iv1 k1.toBytes)).err = .ok ∧
      (after .cbcenc (keyedWith k1 iv1 k1.toBytes)).err = .ok ∧
      (after .cbcdec (keyedWith k1 iv1 (Block.toBytes 0xA6E8D7325BBE0998CF235C1B57E64360))).err = .ok := by decide +kernel

/-- CbcencCompletesOrFails: the shortest and the longest buffer, one byte more, and an unkeyed core. -/
theorem witness_CbcencCompletesOrFails :
    ((keyedWith k1 iv1 []).keyed = true ∧ (keyedWith k1 iv1 []).ilen.toNat ≤ Config.bufBytes - 1 ∧
      { keyedWith k1 iv1 [] with ilen := 4095 }.ilen.toNat ≤ Config.bufBytes - 1) ∧
    State.reset.keyed = false ∧ Config.bufBytes - 1 < { keyedWith k1 iv1 [] with ilen := 4096 }.ilen.toNat := by
  decide +kernel

/-- CbcdecCompletesOrFails: a ciphertext of one block whose plaintext is empty, one with a bad pad (95_test_vectors section 8),
an unkeyed core, a length beyond the capacity, and the lengths 0 and 4095. -/
theorem witness_CbcdecCompletesOrFails :
    (let s := keyedWith k1 iv1 (Block.toBytes 0xA6E8D7325BBE0998CF235C1B57E64360)
     s.keyed = true ∧ s.ilen.toNat ≤ Config.bufBytes ∧ s.ilen.toNat ≠ 0 ∧ s.ilen.toNat % 16 = 0 ∧
       cbcDecrypt tables s.rk s.iv (bufferInput s) = .ok []) ∧
    (let s := keyedWith k1 iv1 (Block.toBytes 0x60C8807E0645BF2FE22F55937E5B123E)
     s.keyed = true ∧ s.ilen.toNat ≤ Config.bufBytes ∧ s.ilen.toNat ≠ 0 ∧ s.ilen.toNat % 16 = 0 ∧
       cbcDecrypt tables s.rk s.iv (bufferInput s) = .error .invalidPadding) ∧
    State.reset.keyed = false ∧ Config.bufBytes < { keyedWith k1 iv1 [] with ilen := 4097 }.ilen.toNat ∧
    (keyedWith k1 iv1 []).ilen.toNat = 0 ∧
    { keyedWith k1 iv1 [] with ilen := 4095 }.ilen.toNat ≤ Config.bufBytes ∧
      { keyedWith k1 iv1 [] with ilen := 4095 }.ilen.toNat % 16 ≠ 0 := by decide +kernel

/-- BadPaddingIsRejected: decryptions that end in 00, in 11, and in 01 02 03 (95_test_vectors section 8). -/
theorem witness_BadPaddingIsRejected :
    [(0x45D40C4A341244896E3A8AA55DA0AF60, 0x00), (0xADBE9AAFD4FE3B21EA2E02262AFCA254, 0x11),
      (0x1247986BEBB11C15961D96A92CB74017, 0x03)].all (fun p : Block × Nat =>
        let s := keyedWith k1 iv1 (Block.toBytes p.1)
        let q := bytesOf (cbcDecryptBlocks tables s.rk s.iv (blocksOf (bufferInput s)))
        s.keyed && decide (s.ilen.toNat = 16) && decide ((q.getD (q.length - 1) 0).toNat = p.2) &&
          (decide (p.2 = 0) || decide (16 < p.2) || decide ((q.getD (q.length - 2) 0).toNat ≠ p.2))) = true := by
  decide +kernel

/-- BadCiphertextLengthIsRejected: lengths 0, 15, 17 and 4095. -/
theorem witness_BadCiphertextLengthIsRejected :
    [0, 15, 17, 4095].all (fun n : Word =>
      let s := { keyedWith k1 iv1 [] with ilen := n }
      s.keyed && decide (s.ilen.toNat ≤ Config.bufBytes) && decide (s.ilen.toNat = 0 ∨ s.ilen.toNat % 16 ≠ 0)) = true := by
  decide +kernel

theorem keyedWith_instance (k v : Block) (inp : List Byte) : InstanceInv (keyedWith k v inp) :=
  ⟨fun _ => rfl, fun h => by simp [keyedWith] at h⟩

/-- CbcResultsAreDeterminate: two states that differ in the IBUF bytes beyond ILEN, in OBUF and in a hidden word. -/
theorem witness_CbcResultsAreDeterminate :
    (let s := keyedWith k1 iv1 [0x41]
     let s' := { keyedWith k1 iv1 [0x41, 0x42] with ilen := 1, chain := 5 }
     s ≠ s' ∧ InstanceInv s ∧ InstanceInv s' ∧ s.keyed = true ∧ s'.keyed = true ∧ s.key = s'.key ∧ s.iv = s'.iv ∧
       s.ilen = s'.ilen ∧ (∀ k, k < s.ilen.toNat → ibufByte s k = ibufByte s' k) ∧
       exec .cbcenc s = .next (after .cbcenc s) ∧ exec .cbcenc s' = .next (after .cbcenc s')) := by
  refine ⟨by decide +kernel, keyedWith_instance .., ⟨fun _ => rfl, fun h => by simp [keyedWith] at h⟩, rfl, rfl, rfl, rfl,
    by decide +kernel, ?_, exec_after .., exec_after ..⟩
  intro k hk
  have h : k = 0 := by
    have : (keyedWith k1 iv1 [0x41]).ilen.toNat = 1 := by decide +kernel
    omega
  subst h
  decide +kernel

/-- FailuresHaveTheCommonEffect: a command in an unkeyed core. -/
theorem witness_FailuresHaveTheCommonEffect :
    exec .cbcdec State.reset = .next (after .cbcdec State.reset) ∧ (after .cbcdec State.reset).err ≠ .ok :=
  ⟨exec_after .., by decide +kernel⟩

/-- ErrorKindsExactly: a state for each kind and command at the edge of its condition. -/
theorem witness_ErrorKindsExactly :
    (after .init (keyedWith k1 iv1 [])).err = .invalidState ∧ (after .cbcenc State.reset).err = .invalidState ∧
      (after .encblk { keyedWith k1 iv1 [] with ilen := 15 }).err = .invalidBlockSize ∧
      (after .decblk { keyedWith k1 iv1 [] with ilen := 17 }).err = .invalidBlockSize ∧
      (after .cbcenc { keyedWith k1 iv1 [] with ilen := 4096 }).err = .bufferCapacity ∧
      (after .cbcdec { keyedWith k1 iv1 [] with ilen := 4097 }).err = .bufferCapacity := by decide +kernel

/-- ErrorPriority: an illegal word in a core that is not busy; each command answers a next state. -/
theorem witness_ErrorPriority :
    (State.reset.busy = false ∧ wordLegal 0 = false) ∧
      ∀ i, exec i State.reset = .next (after i State.reset) := ⟨by decide, fun i => exec_after i _⟩

theorem witness_CommandFrames (i : Instr) : exec i (keyedWith k1 iv1 []) = .next (after i (keyedWith k1 iv1 [])) :=
  exec_after ..

/-- BusyWindow: a busy core with two time units left, and one in its last. -/
theorem witness_BusyWindow :
    (let s := { State.reset with busy := true, left := 2, cmd := 1, seq := ⟨.ks, 0, 0⟩ }
     s.busy = true ∧ (locate 2 ≠ .status) ∧ 1 < s.left ∧ ∃ t, coreTurn s = .next t) ∧
    (let s := { State.reset with busy := true, left := 1, cmd := 1, seq := ⟨.ks, 0, 0⟩ }
     s.busy = true ∧ s.left ≤ 1 ∧ decode s.cmd = .ok .init ∧ coreTurn s = .next (after .init s)) :=
  ⟨⟨rfl, by decide, by decide, _, rfl⟩, rfl, by decide, by decide,
    Eq.trans (b := exec .init { State.reset with busy := true, left := 1, cmd := 1, seq := ⟨.ks, 0, 0⟩ }) rfl (exec_after ..)⟩

theorem witness_SequencerExpandsTheKey :
    decode 1 = .ok .init ∧ initCheck (staged k1.toBytes iv1.toBytes) = .ok := by decide +kernel

theorem witness_SequencerRunsTheBlock :
    blockCheck (keyedWith k1 iv1 k1.toBytes) = .ok ∧ decode 2 = .ok .encblk ∧ decode 3 = .ok .decblk := by decide +kernel

/-- SequencerChainsTheBlocks: a state for each clause. -/
theorem witness_SequencerChainsTheBlocks :
    ((keyedWith k1 iv1 [0x41]).mem.wf ∧ decode 4 = .ok .cbcenc ∧ cbcencCheck (keyedWith k1 iv1 [0x41]) = .ok) ∧
      (keyedWith k1 iv1 k1.toBytes).mem.wf ∧ decode 5 = .ok .cbcdec ∧ cbcdecCheck (keyedWith k1 iv1 k1.toBytes) = .ok := by
  decide +kernel

theorem witness_TimedCommandAgrees :
    (let s := { staged k1.toBytes iv1.toBytes with grain := .timed, script := [.wr 0 1, .wait] }
     s.busy = false ∧ s.grain = .timed ∧ s.script = .wr 0 1 :: .wait :: [] ∧ locate 0 = .cmd ∧ decode 1 = .ok .init ∧
       exec .init { s with script := [] } = .next (after .init { s with script := [] })) :=
  ⟨rfl, rfl, rfl, by decide, by decide, exec_after ..⟩

/-- LevelsAgreeOnWellFormedScripts: construction with K1, IV1, then an encryption (30_encoding R72). -/
theorem witness_LevelsAgreeOnWellFormedScripts :
    (let s := { State.reset with script := constructActions k1.toBytes iv1.toBytes ++ encryptActions [0x41] ++ outputActions 16 }
     s.busy = false ∧ scriptWf false s.script = true) := by decide +kernel

/-- The step of a core that is not busy and has a command to run. -/
theorem step_command (i : Instr) :
    step { keyedWith k1 iv1 [0x41] with script := [.wr 0 (encode i)] } = .next (after i (keyedWith k1 iv1 [0x41])) := by
  rw [← exec_after]
  cases i <;> rfl

theorem witness_StepKeepsMemoryCanonical :
    (let s := { keyedWith k1 iv1 [0x41] with script := [.wr 0 4] }
     MemoryInv s ∧ step s = .next (after .cbcenc (keyedWith k1 iv1 [0x41]))) :=
  ⟨by unfold MemoryInv; decide +kernel, step_command .cbcenc⟩

theorem witness_StepKeepsSequencerPosition :
    (let s := { keyedWith k1 iv1 [0x41] with script := [.wr 0 4] }
     SequencerInv s ∧ step s = .next (after .cbcenc (keyedWith k1 iv1 [0x41]))) :=
  ⟨⟨fun _ => ⟨rfl, rfl, rfl, rfl⟩, fun h => by simp [keyedWith, State.reset] at h, by decide, by decide⟩, step_command .cbcenc⟩

theorem witness_StepKeepsInstanceInvariant :
    (let s := { keyedWith k1 iv1 [0x41] with script := [.wr 0 4] }
     InstanceInv s ∧ step s = .next (after .cbcenc (keyedWith k1 iv1 [0x41]))) :=
  ⟨⟨fun _ => rfl, fun h => by simp [keyedWith] at h⟩, step_command .cbcenc⟩

theorem witness_StepKeepsOutputInvariant :
    (let s := { keyedWith k1 iv1 [0x41] with script := [.wr 0 4] }
     OutputInv s ∧ step s = .next (after .cbcenc (keyedWith k1 iv1 [0x41]))) := by
  refine ⟨fun _ => ⟨by decide, fun i hi _ => ?_, fun h => absurd rfl h⟩, step_command .cbcenc⟩
  refine Memory.read_absent fun c hc => ?_
  have hm : ∀ c ∈ (keyedWith k1 iv1 [0x41]).mem, c.1 < obufBase := by decide +kernel
  have := hm c hc
  omega

/-- OnlyInitKeysOnlyResetUnkeys: a core whose INIT passes its checks, a keyed core that runs a command, a RESET in it, and a
step that sets KEYED. -/
theorem witness_OnlyInitKeysOnlyResetUnkeys :
    initCheck (staged k1.toBytes iv1.toBytes) = .ok ∧ ((keyedWith k1 iv1 [0x41]).keyed = true ∧
      step { keyedWith k1 iv1 [0x41] with script := [.wr 0 4] } = .next (after .cbcenc (keyedWith k1 iv1 [0x41]))) ∧
    (step { keyedWith k1 iv1 [0x41] with script := [.reset] } = .next State.reset) ∧
    (let s := { staged k1.toBytes iv1.toBytes with script := [.wr 0 1] }
     s.keyed = false ∧ step s = .next (after .init (staged k1.toBytes iv1.toBytes)) ∧
       (after .init (staged k1.toBytes iv1.toBytes)).keyed = true) :=
  ⟨by decide +kernel, ⟨rfl, step_command .cbcenc⟩, rfl, rfl, (exec_after .init (staged k1.toBytes iv1.toBytes)), by decide +kernel⟩

end Sys2Proof.Tests
end

section
/-! PROOFS of the statements about the state (10_state). First what the end of a command and its acceptance do to the
fields the invariants read; then each invariant along the cases of `Effect`; last the acceptance step, the output lengths and
the port's registers. -/

namespace Sys2Proof.Machine

open Sys2Proof.Safety

/- The end of a command -/

/-- Every command ends in `complete`, from a state `u` that has the memory of `s`: without output beside an error, and
with KEY, IV, RK or KEYED changed only by an INIT whose checks pass. -/
theorem exec_eq_complete {i : Instr} {s t : State} (h : exec i s = .next t) :
    ∃ e out u, t = complete e out u ∧ out.length ≤ Config.bufBytes ∧ (e ≠ .ok → out = []) ∧ u.mem = s.mem ∧
      (InstanceUnchanged s u ∨ (i = .init ∧ initCheck s = .ok ∧ e = .ok ∧ out = [] ∧ u = latchInstance s)) := by
  rcases exec_cases i s with ⟨e, -, h'⟩ | h' | ⟨hi, hc, h'⟩ | ⟨y, -, h'⟩ | ⟨y, -, hl, h'⟩ | ⟨y, -, hl, h'⟩ <;>
    (rw [h'] at h; cases h)
  · exact ⟨e, [], s, rfl, by simp, fun _ => rfl, rfl, .inl ⟨rfl, rfl, rfl, rfl⟩⟩
  · exact ⟨_, [], _, rfl, by simp, fun _ => rfl, rfl, .inl ⟨rfl, rfl, rfl, rfl⟩⟩
  · exact ⟨_, [], _, rfl, by simp, fun _ => rfl, rfl, .inr ⟨hi, hc, rfl, rfl, rfl⟩⟩
  · exact ⟨_, _, _, rfl, by rw [length_toBytes]; decide, fun he => absurd rfl he, rfl, .inl ⟨rfl, rfl, rfl, rfl⟩⟩
  · exact ⟨_, _, _, rfl, hl, fun he => absurd rfl he, rfl, .inl ⟨rfl, rfl, rfl, rfl⟩⟩
  · exact ⟨_, _, _, rfl, hl, fun he => absurd rfl he, rfl, .inl ⟨rfl, rfl, rfl, rfl⟩⟩

/-- A command leaves KEY, IV, RK and KEYED alone, or is an INIT that latches them (42_key_schedule R106). -/
theorem exec_instance {i : Instr} {s t : State} (h : exec i s = .next t) :
    InstanceUnchanged s t ∨ (i = .init ∧ initCheck s = .ok ∧ t = succeed [] (latchInstance s)) := by
  obtain ⟨e, out, u, rfl, -, -, -, hu | ⟨hi, hc, rfl, rfl, rfl⟩⟩ := exec_eq_complete h
  · exact .inl hu
  · exact .inr ⟨hi, hc, rfl⟩

/-- INIT latches key, IV and schedule when its checks pass. -/
theorem exec_init_of_check {s : State} (h : initCheck s = .ok) : exec .init s = .next (succeed [] (latchInstance s)) := by
  rcases execInit_cases s with ⟨hc, -⟩ | ⟨-, h'⟩
  · exact absurd h hc
  · exact h'

/- The acceptance of a command -/

/-- Acceptance of a command changes no buffer, length register, key, IV, round key or result, nor the host's fields. -/
theorem accept_frame (i : Instr) (w : Word) (s : State) :
    StagingUnchanged s (accept i w s) ∧ InstanceUnchanged s (accept i w s) ∧ ResultUnchanged s (accept i w s) ∧
      HostUnchanged s (accept i w s) := by
  obtain ⟨-, -, -, -, hf, hrk, hm⟩ := accept_effect i w s
  exact ⟨⟨hf.klen, hf.ivlen, hf.ilen, fun n _ => by rw [hm]⟩, ⟨hf.key, hf.iv, hrk, hf.keyed⟩,
    ⟨hf.olen, hf.err, fun i _ => by unfold obufByte; rw [hm]⟩, hf.grain, hf.script, hf.rdata⟩

/- The byte locations -/

/-- The end of a command keeps the byte locations canonical and within their windows. -/
theorem memoryInv_complete {s u : State} {out : List Byte} (e : ErrorKind) (h : MemoryInv s) (hm : u.mem = s.mem)
    (hl : out.length ≤ Config.bufBytes) : MemoryInv (complete e out u) := by
  obtain ⟨hwf, hb⟩ := h
  have hc : ∀ c ∈ s.mem.clearObuf, isByteAddr c.1 = true := fun c hc => hb c (List.mem_filter.1 hc).1
  unfold MemoryInv
  rw [complete_mem, hm]
  refine ⟨Memory.wf_setObuf hwf out, ?_⟩
  rw [Memory.setObuf]
  exact (ObufOnly.writeBytes _ (i := 0) (by omega)).byteAddr hc

/-- Settles O55: a write of a byte location and the end of a command keep the form, and the sequencer writes in OBUF alone. -/
theorem stepKeepsMemoryCanonical : Obligations.StepKeepsMemoryCanonical := by
  intro s t hinv h
  cases step_cases h with
  | port r v h => subst h; exact hinv
  | reset r hs h => subst h; exact ⟨reset_mem_wf, by simp [State.reset]⟩
  | length r k i n hb h => subst h; exact hinv
  | byte r n v hb hn h =>
    subst h
    exact ⟨Memory.wf_write hinv.1 n v, Memory.byteAddr_write hinv.2 v hn.1⟩
  | illegal r v hc h => subst h; exact memoryInv_complete _ hinv rfl (by simp)
  | command i r v hc h =>
    obtain ⟨e, out, u, rfl, hl, -, hm, -⟩ := exec_eq_complete h
    exact memoryInv_complete e hinv hm hl
  | accepted i w r hb hg hd h =>
    obtain ⟨-, -, -, -, -, -, hm⟩ := accept_effect i w { s with script := r }
    subst h
    unfold MemoryInv
    rw [hm]
    exact hinv
  | tick r v hb hl h => exact ⟨h.mem.wf hinv.1, h.mem.byteAddr hinv.2⟩

/- The sequencer position -/

/-- A core with no command in progress is at a legal position. -/
theorem sequencerInv_of_idle {s : State} (h : Idle s) : SequencerInv s := by
  have hidle := h
  obtain ⟨hb, hq, -, -⟩ := h
  refine ⟨fun _ => hidle, fun hb' => by simp [hb] at hb', ?_, ?_⟩ <;> rw [hq] <;> decide

/-- A command just accepted is at a legal position. -/
theorem sequencerInv_accept {i : Instr} {w : Word} (hd : decode w = .ok i) (s : State) : SequencerInv (accept i w s) := by
  obtain ⟨hb, hc, hl, hq, -⟩ := accept_effect i w s
  have hblocks : 0 < Config.bufBytes / 16 := by decide
  exact ⟨fun hb' => by simp [hb] at hb', fun _ => ⟨hl ▸ latency_pos i s, i, by rw [hc, hd], by rw [hq]⟩,
    by simp [hq], by simpa [hq] using hblocks⟩

/-- What the sequencer does in a command in progress keeps its position legal. -/
theorem InFlight.sequencerInv {s t : State} (h : InFlight s t) (hb : s.busy = true) (hinv : SequencerInv s) :
    SequencerInv t := by
  obtain ⟨-, hbusy, hr, hk⟩ := hinv
  obtain ⟨hl, i, hd, hp⟩ := hbusy hb
  exact ⟨fun hb' => by simp [h.busy, hb] at hb',
    fun _ => ⟨h.left ▸ hl, i, by rw [h.cmd, hd], by rw [h.phase, hp]⟩, h.rnd hr, h.blk hk⟩

/-- Settles O56: the position is at its start after every end of a command, at round 0 after an acceptance, and the sequencer
keeps it within its bounds. -/
theorem stepKeepsSequencerPosition : Obligations.StepKeepsSequencerPosition := by
  intro s t hinv h
  cases step_cases h with
  | port r v h => subst h; exact hinv
  | reset r hs h => subst h; exact sequencerInv_of_idle ⟨rfl, rfl, rfl, rfl⟩
  | length r k i n hb h => subst h; exact hinv
  | byte r n v hb hn h => subst h; exact hinv
  | illegal r v hc h => subst h; exact sequencerInv_of_idle (complete_idle ..)
  | command i r v hc h => exact sequencerInv_of_idle (exec_idle h)
  | accepted i w r hb hg hd h => subst h; exact sequencerInv_accept hd _
  | tick r v hb hl h =>
    obtain ⟨hidle, hbusy, hpos⟩ := hinv
    refine h.sequencerInv hb ⟨fun hb' => by simp [hb] at hb', fun _ => ⟨?_, (hbusy hb).2⟩, hpos⟩
    show 1 ≤ s.left - 1
    omega

/- The output -/

/-- The end of a command leaves OLEN and OBUF consistent. -/
theorem outputInv_complete {e : ErrorKind} {out : List Byte} (hl : out.length ≤ Config.bufBytes) (he : e ≠ .ok → out = [])
    (s : State) : OutputInv (complete e out s) := by
  obtain ⟨hlen, hbytes⟩ := complete_output e hl s
  refine fun _ => ⟨by omega, fun i hi hge => ?_, fun hne => ?_⟩
  · rw [hbytes i hi, List.getD_eq_default _ _ (by omega)]
  · rw [complete_olen, he hne]; rfl

/-- A write of a byte location the host may write leaves OBUF alone. -/
theorem read_write_writable (m : Memory) {n i : Nat} (v : Byte) (hn : Writable n) (hi : i < Config.bufBytes) :
    (m.write n v).read (obufBase + i) = m.read (obufBase + i) := by
  refine Memory.read_write_ne v fun he => ?_
  have := (byteAddr_obuf hi).2
  simp [he, hn.2] at this

/-- Settles O58: OLEN and OBUF change only at a RESET and at the end of a command, but for OBUF while BUSY = 1. -/
theorem stepKeepsOutputInvariant : Obligations.StepKeepsOutputInvariant := by
  intro s t hinv h
  cases step_cases h with
  | port r v h => subst h; exact hinv
  | reset r hs h => subst h; exact fun _ => ⟨Nat.zero_le _, fun _ _ _ => rfl, fun hne => absurd rfl hne⟩
  | length r k i n hb h => subst h; exact hinv
  | byte r n v hb hn h =>
    subst h
    intro _
    obtain ⟨hlen, hbytes, herr⟩ := hinv hb
    exact ⟨hlen, fun i hi hge => (read_write_writable s.mem v hn hi).trans (hbytes i hi hge), herr⟩
  | illegal r v hc h => subst h; exact outputInv_complete (by simp) (fun _ => rfl) _
  | command i r v hc h =>
    obtain ⟨e, out, u, rfl, hl, he, -⟩ := exec_eq_complete h
    exact outputInv_complete hl he u
  | accepted i w r hb hg hd h =>
    subst h
    intro hb'
    simp [(accept_effect i w { s with script := r }).1] at hb'
  | tick r v hb hl h => exact fun hb' => by simp [h.busy, hb] at hb'

/- KEY, IV, RK and KEYED -/

/-- An INIT whose checks pass is in progress. -/
def InitRunning (s : State) : Prop := s.busy = true ∧ decode s.cmd = .ok .init ∧ initCheck s = .ok

theorem not_initRunning_of_idle {s : State} (h : s.busy = false) : ¬ InitRunning s := by
  simp [InitRunning, h]

/-- The sequencer leaves an INIT running, and a core without one does not get one. -/
theorem InFlight.initRunning {s t : State} (h : InFlight s t) : InitRunning t ↔ InitRunning s := by
  unfold InitRunning
  rw [h.busy, h.cmd, h.initCheck]

/-- What a step does to KEY, IV, RK and KEYED, by name. -/
inductive InstanceEffect (s t : State) : Prop where
  /-- Nothing, and a running INIT still runs. -/
  | unchanged (hu : InstanceUnchanged s t) (hr : InitRunning s → InitRunning t)
  /-- RESET. -/
  | reset (r : List HostAction) (hs : s.script = .reset :: r) (h : t = { State.reset with script := r, grain := s.grain })
  /-- INIT latches them. -/
  | latched (r : List HostAction) (v : Word) (hc : Issued .init s ∨ Ending .init s) (hi : initCheck s = .ok)
      (h : t = succeed [] (latchInstance { s with script := r, rdata := v }))
  /-- A running INIT writes RK. -/
  | expanding (hs : InitRunning s) (ht : InitRunning t) (hkey : t.key = s.key) (hiv : t.iv = s.iv)

/-- A completed command either leaves KEY, IV, RK and KEYED, and was then no running INIT, or latches them. -/
theorem instanceEffect_exec {i : Instr} {s t : State} {r : List HostAction} {v : Word} (hc : Issued i s ∨ Ending i s)
    (h : exec i { s with script := r, rdata := v } = .next t) : InstanceEffect s t := by
  rcases exec_instance h with hu | ⟨rfl, hi, ht⟩
  · refine .unchanged hu fun ⟨hb, hd, hi⟩ => ?_
    obtain ⟨hidle, -⟩ | ⟨-, -, hd'⟩ := hc
    · simp [hb] at hidle
    · obtain rfl : i = .init := by simpa [hd] using hd'.symm
      have hlatched := exec_init_of_check (s := { s with script := r, rdata := v }) hi
      rw [hlatched] at h
      cases h
      have hkeyed : true = s.keyed := hu.2.2.2
      simp [(initCheck_ok.1 hi).1] at hkeyed
  · exact .latched r v hc hi ht

/-- Everything a step can do to KEY, IV, RK and KEYED (10_state R18 to R21, R28). -/
theorem step_instanceEffect {s t : State} (h : step s = .next t) : InstanceEffect s t := by
  cases step_cases h with
  | port r v h => subst h; exact .unchanged ⟨rfl, rfl, rfl, rfl⟩ id
  | reset r hs h => exact .reset r hs h
  | length r k i n hb h =>
    subst h; exact .unchanged ⟨rfl, rfl, rfl, rfl⟩ fun hr => absurd hr (not_initRunning_of_idle hb)
  | byte r n v hb hn h =>
    subst h; exact .unchanged ⟨rfl, rfl, rfl, rfl⟩ fun hr => absurd hr (not_initRunning_of_idle hb)
  | illegal r v hc h =>
    subst h
    refine .unchanged ⟨rfl, rfl, rfl, rfl⟩ fun hr => ?_
    obtain hb | ⟨-, e, hd⟩ := hc
    · exact absurd hr (not_initRunning_of_idle hb)
    · exact absurd (hd.symm.trans hr.2.1) (by simp)
  | command i r v hc h => exact instanceEffect_exec hc h
  | accepted i w r hb hg hd h =>
    subst h
    exact .unchanged (accept_frame i w { s with script := r }).2.1 fun hr => absurd hr (not_initRunning_of_idle hb)
  | tick r v hb hl h =>
    rcases h.rk with hrk | ⟨hd, hi⟩
    · exact .unchanged ⟨h.key, h.iv, hrk, h.keyed⟩ h.initRunning.2
    · exact .expanding ⟨hb, hd, hi⟩ (h.initRunning.2 ⟨hb, hd, hi⟩) h.key h.iv

/-- Settles O57: an unchanged key keeps its schedule, a RESET zeroes it, INIT latches key and schedule together, and a
running INIT keeps KEYED, KEY and IV at zero. -/
theorem stepKeepsInstanceInvariant : Obligations.StepKeepsInstanceInvariant := by
  rintro s t ⟨hkeyed, hunkeyed⟩ h
  cases step_instanceEffect h with
  | unchanged hu hr =>
    obtain ⟨hkey, hiv, hrk, hk⟩ := hu
    refine ⟨fun ht => by rw [hrk, hkey, hkeyed (hk ▸ ht)], fun ht => ?_⟩
    obtain ⟨h0, h1, h2⟩ := hunkeyed (hk ▸ ht)
    exact ⟨by rw [hkey, h0], by rw [hiv, h1], h2.imp hrk.trans hr⟩
  | reset r hs h => subst h; exact ⟨fun ht => by simp [State.reset] at ht, fun _ => ⟨rfl, rfl, .inl rfl⟩⟩
  | latched r v hc hi h => subst h; exact ⟨fun _ => rfl, fun ht => by simp at ht⟩
  | expanding hs ht hkey hiv =>
    obtain ⟨h0, h1, -⟩ := hunkeyed (initCheck_ok.1 hs.2.2).1
    have hk := (initCheck_ok.1 ht.2.2).1
    exact ⟨fun hk' => by simp [hk] at hk', fun _ => ⟨by rw [hkey, h0], by rw [hiv, h1], .inr ht⟩⟩

/-- Settles O59: of what a step can do to KEYED, only RESET clears KEYED and only INIT's latch sets it. -/
theorem onlyInitKeysOnlyResetUnkeys : Obligations.OnlyInitKeysOnlyResetUnkeys := by
  refine ⟨rfl, fun s hc => ⟨_, exec_init_of_check hc, rfl⟩, fun s t h => ?_⟩
  cases step_instanceEffect h with
  | unchanged hu hr => exact ⟨fun _ => .inl hu, fun hs ht => by simp [hu.2.2.2, hs] at ht⟩
  | reset r hs h => exact ⟨fun _ => .inr ⟨r, hs, h⟩, fun _ ht => by simp [h, State.reset] at ht⟩
  | latched r v hc hi h =>
    refine ⟨fun hk => by simp [(initCheck_ok.1 hi).1] at hk, fun _ _ => ?_⟩
    subst h
    exact ⟨hc.imp (fun hc => ⟨hc.1, hc.2.2⟩) id, exec_init_of_check hi, hi, rfl, rfl, rfl, rfl⟩
  | expanding hs ht hkey hiv =>
    exact ⟨fun hk => by simp [(initCheck_ok.1 hs.2.2).1] at hk, fun _ hk => by simp [(initCheck_ok.1 ht.2.2).1] at hk⟩

/- The write of a command word -/

/-- The step of a core that is not busy whose next action writes CMD issues the word (30_encoding R61). -/
theorem step_cmdWrite {s : State} {a w : Word} {rest : List HostAction} (hb : s.busy = false)
    (hs : s.script = .wr a w :: rest) (ha : locate a = .cmd) : step s = issue w { s with script := rest } := by
  simp [step, idleUnit, act, hostWrite, hb, hs, ha]

/-- At the finer level a legal word is accepted (70_reset R184). -/
theorem issue_timed {s : State} {w : Word} {i : Instr} (hg : s.grain = .timed) (hd : decode w = .ok i) :
    issue w s = .next (accept i w s) := by
  simp [issue, hg, hd]

/-- Settles O6: the step is the acceptance, whose frame is `accept_frame`. -/
theorem timedCommandIsAccepted : Obligations.TimedCommandIsAccepted := by
  intro s a w rest i hb hg hs ha hd
  obtain ⟨hbusy, hcmd, hleft, hseq, -⟩ := accept_effect i w { s with script := rest }
  obtain ⟨hst, hin, hre, hgr, hsc, hrd⟩ := accept_frame i w { s with script := rest }
  exact ⟨_, (step_cmdWrite hb hs ha).trans (issue_timed hg hd), hbusy, hcmd, hleft ▸ latency_pos i _, hleft, hseq, hsc, hrd,
    hgr.trans hg, hst, hin, hre⟩

/- The output lengths -/

/-- A block command that succeeds leaves OLEN = 16 (10_state R26). -/
theorem olen_of_block {i : Instr} {s t : State} (hi : i = .encblk ∨ i = .decblk) (h : exec i s = .next t)
    (ht : t.err = .ok) : t.olen = 16 := by
  obtain rfl | rfl := hi
  · rcases execEncblk_cases s with ⟨hc, h'⟩ | ⟨-, h'⟩ <;> (rw [exec_encblk, h'] at h; cases h)
    · exact absurd ht hc
    · exact blockResult_olen _ s
  · rcases execDecblk_cases s with ⟨hc, h'⟩ | ⟨-, h'⟩ <;> (rw [exec_decblk, h'] at h; cases h)
    · exact absurd ht hc
    · exact blockResult_olen _ s

/-- A CBCENC that succeeds leaves the length of the padded input in OLEN (10_state R26). -/
theorem olen_of_cbcenc {s t : State} (h : exec .cbcenc s = .next t) (ht : t.err = .ok) :
    t.olen.toNat = 16 * (s.ilen.toNat / 16 + 1) := by
  rcases execCbcenc_cases s with ⟨hc, h'⟩ | ⟨hc, h'⟩ <;> (rw [exec_cbcenc, h'] at h; cases h)
  · exact absurd ht hc
  · have hlen := length_cbcEncrypt tables s.rk s.iv (bufferInput s)
    rw [length_bufferInput] at hlen
    have hfit := (cbcencCheck_ok.1 hc).2
    have hb := map_values.2.2.2.2.2
    exact (complete_output .ok (by omega) _).1.trans hlen

/-- A CBCDEC that succeeds leaves 1 to 16 bytes less than its input (44_cbc_wrapper R145). -/
theorem olen_of_cbcdec {s t : State} (h : exec .cbcdec s = .next t) (ht : t.err = .ok) :
    ∃ n, 1 ≤ n ∧ n ≤ 16 ∧ t.olen.toNat + n = s.ilen.toNat := by
  rcases execCbcdec_cases s with ⟨hc, h'⟩ | ⟨-, -, h'⟩ | ⟨hc, y, hy, h'⟩ <;> (rw [exec_cbcdec, h'] at h; cases h)
  · exact absurd ht hc
  · exact absurd ht (by simp)
  · obtain ⟨-, -, n, h1, h2, hlen⟩ := cbcDecrypt_length hy
    rw [length_bufferInput] at hlen
    have hfit := (cbcdecCheck_ok.1 hc).2.1
    have holen := (complete_output .ok (out := y) (by omega) (afterCbcDecrypt (bufferInput s) s)).1
    exact ⟨n, h1, h2, by rw [succeed_eq, holen, hlen]⟩

/-- Settles O38, from the length law of each command. -/
theorem outputLengths : Obligations.OutputLengths := by
  intro i s t h ht
  refine ⟨fun hi => olen_of_block hi h ht, ?_, ?_⟩
  · rintro rfl
    have := olen_of_cbcenc h ht
    omega
  · rintro rfl
    exact olen_of_cbcdec h ht

/- The registers -/

/-- An address of RK reads its word in a core that is not busy (10_state R20). -/
theorem hostRead_rk {s : State} (hb : s.busy = false) {a : Word} {i : Nat} (h : locate a = .rk i) :
    hostRead s a = rkAt s.rk i := by
  rw [hostRead_idle hb, idleRead, h]

/-- Settles O11, from the address map. -/
theorem lengthRegistersReadBack : Obligations.LengthRegistersReadBack := by
  intro s v hb
  obtain ⟨hcmd, -, hklen, hivlen, hilen, holen⟩ := locate_addr
  have hpair : ∀ i, i < 16 →
      (hostRead s (addr (.rk (2 * i))), hostRead s (addr (.rk (2 * i + 1)))) = roundKeyPair s.rk i := fun i hi => by
    rw [hostRead_rk hb (locate_addr_rk (by omega)), hostRead_rk hb (locate_addr_rk (by omega)), roundKeyPair]
  refine ⟨?_, ?_, ?_, ?_, ?_, ?_, fun a i h => ⟨(locate_eq_rk.1 h).1, hostRead_rk hb h⟩, hpair, ?_, ?_⟩ <;>
    simp [hostWrite, hostRead, idleRead, hb, hcmd, hklen, hivlen, hilen, holen]

end Sys2Proof.Machine
end

section
/-! PROOFS of the statements about the byte order and the host port (20_memory). First words, bytes and blocks; then where a
byte address lies and what an access to it does; last the locations that ignore a write. -/

namespace Sys2Proof

/- Four equal parts of a pattern, the first part on top -/

/-- The four parts of a pattern joined give it back. -/
theorem append_parts {n : Nat} (x : BitVec (n + n + n + n)) :
    x.extractLsb' (n + n + n) n ++ x.extractLsb' (n + n) n ++ x.extractLsb' n n ++ x.extractLsb' 0 n = x := by
  rw [BitVec.extractLsb'_append_extractLsb'_eq_extractLsb' rfl, BitVec.extractLsb'_append_extractLsb'_eq_extractLsb' rfl,
    BitVec.extractLsb'_append_extractLsb'_eq_extractLsb' (Nat.zero_add n).symm]
  exact BitVec.extractLsb'_eq_self

/-- The parts of a joined pattern are the ones it was joined from. -/
theorem parts_append {n : Nat} (a b c d : BitVec n) :
    (a ++ b ++ c ++ d).extractLsb' (n + n + n) n = a ∧ (a ++ b ++ c ++ d).extractLsb' (n + n) n = b ∧
      (a ++ b ++ c ++ d).extractLsb' n n = c ∧ (a ++ b ++ c ++ d).extractLsb' 0 n = d := by
  have hskip : ∀ {m : Nat} (x : BitVec m) (y : BitVec n) (k : Nat),
      (x ++ y).extractLsb' (k + n) n = x.extractLsb' k n := fun x y k => by
    rw [BitVec.extractLsb'_append_eq_of_le (Nat.le_add_left n k), Nat.add_sub_cancel]
  have hnext : ∀ {m : Nat} (x : BitVec m) (y : BitVec n), (x ++ y).extractLsb' n n = x.extractLsb' 0 n := fun x y => by
    simpa using hskip x y 0
  refine ⟨?_, ?_, ?_, BitVec.extractLsb'_append_eq_right⟩
  · rw [hskip, hskip, BitVec.extractLsb'_append_eq_left]
  · rw [hskip, hnext, BitVec.extractLsb'_append_eq_right]
  · rw [hnext, BitVec.extractLsb'_append_eq_right]

/- Words and bytes -/

/-- The bytes of a word joined give the word back (00_scope R9). -/
theorem be32_bytesBe (w : Word) :
    be32 (w.extractLsb' 24 8) (w.extractLsb' 16 8) (w.extractLsb' 8 8) (w.extractLsb' 0 8) = w := append_parts (n := 8) w

/-- The bytes of a joined word are the bytes it was joined from (R9). -/
theorem bytesBe_be32 (b0 b1 b2 b3 : Byte) : bytesBe (be32 b0 b1 b2 b3) = [b0, b1, b2, b3] := by
  obtain ⟨h0, h1, h2, h3⟩ := parts_append b0 b1 b2 b3
  simp only [bytesBe, be32]
  rw [h0, h1, h2, h3]

/-- The bytes of word k of a sequence are its bytes 4k to 4k+3 (20_memory R46). -/
theorem bytesBe_wordAt {l : List Byte} {k : Nat} (h : 4 * k + 4 ≤ l.length) :
    bytesBe (wordAt l k) = (l.drop (4 * k)).take 4 := by
  rw [wordAt, bytesBe_be32]
  refine List.ext_getElem (by simp; omega) fun i hi _ => ?_
  have hi4 : i < 4 := hi
  interval_cases i <;> simp (disch := omega)

/- Blocks, words and bytes -/

/-- The words of a block joined from words (R46). -/
theorem word_ofWords (w0 w1 w2 w3 : Word) :
    (Block.ofWords w0 w1 w2 w3).word 0 = w0 ∧ (Block.ofWords w0 w1 w2 w3).word 1 = w1 ∧
      (Block.ofWords w0 w1 w2 w3).word 2 = w2 ∧ (Block.ofWords w0 w1 w2 w3).word 3 = w3 :=
  parts_append w0 w1 w2 w3

/-- A block is its four words joined (R46). -/
theorem ofWords_word (x : Block) : Block.ofWords (x.word 0) (x.word 1) (x.word 2) (x.word 3) = x :=
  append_parts (n := 32) x

/-- Word k of a block made of bytes is word k of the bytes (R46). -/
theorem word_ofBytes (l : List Byte) {k : Nat} (h : k < 4) : (Block.ofBytes l).word k = wordAt l k := by
  obtain ⟨h0, h1, h2, h3⟩ := word_ofWords (wordAt l 0) (wordAt l 1) (wordAt l 2) (wordAt l 3)
  interval_cases k
  exacts [h0, h1, h2, h3]

/-- Splitting 16 bytes into words and joining them again gives the bytes (R46). -/
theorem toBytes_ofBytes {l : List Byte} (h : l.length = 16) : (Block.ofBytes l).toBytes = l := by
  have hword : ∀ k, k < 4 → bytesBe ((Block.ofBytes l).word k) = (l.drop (4 * k)).take 4 := fun k hk => by
    rw [word_ofBytes l hk, bytesBe_wordAt (by omega)]
  rw [Block.toBytes, hword 0 (by decide), hword 1 (by decide), hword 2 (by decide), hword 3 (by decide)]
  calc l.take 4 ++ (l.drop 4).take 4 ++ (l.drop 8).take 4 ++ (l.drop 12).take 4
      = l.take 16 := by rw [← List.take_add, ← List.take_add, ← List.take_add]
    _ = l := List.take_of_length_le h.le

/-- Word k of the bytes of a block is word k of the block (R46). -/
theorem wordAt_toBytes (x : Block) {k : Nat} (h : k < 4) : wordAt x.toBytes k = x.word k := by
  interval_cases k <;> exact be32_bytesBe _

/-- A block split into bytes and joined again is the block (R46). -/
theorem ofBytes_toBytes (x : Block) : Block.ofBytes x.toBytes = x := by
  rw [Block.ofBytes, wordAt_toBytes x (by decide), wordAt_toBytes x (by decide), wordAt_toBytes x (by decide),
    wordAt_toBytes x (by decide), ofWords_word]

/-- Settles O26: bytes and words, words and blocks are inverse conversions. -/
theorem blockByteOrder : Obligations.BlockByteOrder :=
  ⟨fun l h => ⟨fun _ hk => word_ofBytes l hk, toBytes_ofBytes h⟩, fun x => ⟨ofBytes_toBytes x, (ofWords_word x).symm⟩⟩

namespace Machine

/- The address map -/

/-- Settles O10, from the address map read both ways. -/
theorem addressMapRegions : Obligations.AddressMapRegions :=
  ⟨locate_addr, fun _ =>
    ⟨fun _ hi h => locate_eq_keybuf.2 ⟨hi, h⟩, fun _ hi h => locate_eq_ivbuf.2 ⟨hi, h⟩,
      fun _ hi h => locate_eq_rk.2 ⟨hi, h⟩, fun _ hi h => locate_eq_ibuf.2 ⟨hi, h⟩,
      fun _ hi h => locate_eq_obuf.2 ⟨hi, h⟩, locate_eq_iff⟩⟩

/-- An address the host may write a byte to lies in KEYBUF, IVBUF or IBUF (20_memory R42, R43). -/
theorem locate_of_writable {a : Word} (h : Writable a.toNat) :
    (∃ i, locate a = .keybuf i) ∨ (∃ i, locate a = .ivbuf i) ∨ ∃ i, locate a = .ibuf i := by
  obtain ⟨hlo, hhi⟩ | ⟨hlo, hhi⟩ | ⟨hlo, hhi⟩ := writable_iff.1 h
  · exact .inl ⟨a.toNat - keybufBase, locate_eq_keybuf.2 (by omega)⟩
  · exact .inr (.inl ⟨a.toNat - ivbufBase, locate_eq_ivbuf.2 (by omega)⟩)
  · exact .inr (.inr ⟨a.toNat - ibufBase, locate_eq_ibuf.2 (by omega)⟩)

/-- An address in the OBUF window names a byte of OBUF (R42). -/
theorem locate_of_inObuf {a : Word} (h : inObuf a.toNat = true) : ∃ i, locate a = .obuf i := by
  obtain ⟨hlo, hhi⟩ := inObuf_iff.1 h
  exact ⟨a.toNat - obufBase, locate_eq_obuf.2 (by omega)⟩

/- Accesses to a byte location -/

/-- A read of a byte location is its byte, zero-extended (20_memory R43). -/
theorem hostRead_byteAddr {s : State} (hb : s.busy = false) {a : Word} (h : isByteAddr a.toNat = true) :
    hostRead s a = (s.mem.read a.toNat).setWidth 32 := by
  rw [hostRead_idle hb]
  cases ho : inObuf a.toNat
  · obtain ⟨i, hl⟩ | ⟨i, hl⟩ | ⟨i, hl⟩ := locate_of_writable ⟨h, ho⟩
    · rw [idleRead, hl, (locate_eq_keybuf.1 hl).2]
    · rw [idleRead, hl, (locate_eq_ivbuf.1 hl).2]
    · rw [idleRead, hl, (locate_eq_ibuf.1 hl).2]
  · obtain ⟨i, hl⟩ := locate_of_inObuf ho
    rw [idleRead, hl, (locate_eq_obuf.1 hl).2]

/-- A read sees of the memory at most the byte at its own address. -/
theorem hostRead_congr_mem (s : State) {m : Memory} {b : Word} (h : m.read b.toNat = s.mem.read b.toNat) :
    hostRead { s with mem := m } b = hostRead s b := by
  have hidle : idleRead { s with mem := m } b = idleRead s b := by
    have hat := locate_at b
    unfold idleRead
    cases hl : locate b with
    | keybuf i | ivbuf i | ibuf i | obuf i =>
      rw [hl] at hat
      simp only [← hat.2, h]
    | _ => rfl
  simp only [hostRead, hidle]
  rfl

/-- A write to a byte location outside OBUF stores bits 7:0 of the value there (R43). -/
theorem hostWrite_writable {s : State} (hb : s.busy = false) {a : Word} (h : Writable a.toNat) (v : Word) :
    hostWrite s a v = .next { s with mem := s.mem.write a.toNat (v.setWidth 8) } := by
  obtain ⟨i, hl⟩ | ⟨i, hl⟩ | ⟨i, hl⟩ := locate_of_writable h
  · simp [hostWrite, hb, hl, (locate_eq_keybuf.1 hl).2]
  · simp [hostWrite, hb, hl, (locate_eq_ivbuf.1 hl).2]
  · simp [hostWrite, hb, hl, (locate_eq_ibuf.1 hl).2]

/-- Settles O8: a write is one `Memory.write`, which reads back and leaves every other location alone. -/
theorem byteLocationsHoldBytes : Obligations.ByteLocationsHoldBytes := by
  intro s hb hwf a ha
  refine ⟨hostRead_byteAddr hb ha, fun ho v => ?_⟩
  have hback : (s.mem.write a.toNat (v.setWidth 8)).read a.toNat = v.extractLsb' 0 8 :=
    (Memory.read_write_same hwf ..).trans (BitVec.setWidth_eq_extractLsb' (by decide))
  refine ⟨_, hostWrite_writable hb ⟨ha, ho⟩ v, hback, ?_, fun b hne => ?_⟩
  · rw [hostRead_byteAddr ?_ ha, hback]
    exact hb
  · have hother : b.toNat ≠ a.toNat := fun he => hne (BitVec.eq_of_toNat_eq he)
    exact hostRead_congr_mem s (Memory.read_write_ne _ hother)

/- Locations that ignore a write -/

/-- An unmapped address reads 0, in a busy core too (20_memory R44, 70_reset R184 b). -/
theorem hostRead_unmapped (s : State) {a : Word} (h : locate a = .unmapped) : hostRead s a = 0 := by
  cases hb : s.busy
  · rw [hostRead_idle hb, idleRead, h]
  · rw [hostRead_busy hb, h]; rfl

/-- Settles O9: a read's only effect is the value read, and a write to a read-only or unmapped location has none, whether the
core is busy or not. -/
theorem protectedLocationsIgnoreWrites : Obligations.ProtectedLocationsIgnoreWrites := by
  refine ⟨fun s a h => ?_, fun s a => rfl, fun s a v h => ?_⟩
  · rw [act, hostRead_unmapped s h]
  · obtain h | h | h | ⟨i, h⟩ | ⟨i, h⟩ := h <;> simp [hostWrite, h]

end Machine

end Sys2Proof
end

section
/-! PROOFS of the statements about the encoding (30_encoding). First the decoder, from its table and from the two fields of a
word; then legal words and the write of an illegal one; then the step that runs a command; last the status word. -/

namespace Sys2Proof

/- The decoder and the command words -/

/-- The command word of a command decodes to it (30_encoding R62, R74). -/
theorem decode_encode (i : Instr) : decode (encode i) = .ok i := by
  cases i
  exacts [Laws.Encoding.init.2.1, Laws.Encoding.encblk.2.1, Laws.Encoding.decblk.2.1, Laws.Encoding.cbcenc.2.1,
    Laws.Encoding.cbcdec.2.1]

/-- A row of the command table compares all 32 bits with the row's command word (R74). -/
theorem match_opcodeRow_iff {r : OpcodeRow} (hr : r ∈ opcodeTable) (w : Word) :
    (w &&& r.mask == r.pattern) = true ↔ w = encode r.instr := by
  have hrows : ∀ r ∈ opcodeTable, r.mask = BitVec.allOnes 32 ∧ r.pattern = encode r.instr := by decide
  obtain ⟨hmask, hpattern⟩ := hrows r hr
  rw [hmask, hpattern, BitVec.and_allOnes, beq_iff_eq]

/-- A word that decodes to a command is its command word: the row that hit holds it (R74). -/
theorem eq_encode_of_decode {w : Word} {i : Instr} (h : decode w = .ok i) : w = encode i := by
  unfold decode at h
  split at h
  · rename_i r hfind
    cases h
    have hhit := List.find?_some hfind
    exact (match_opcodeRow_iff (List.mem_of_find?_eq_some hfind) w).1 hhit
  · split at h <;> cases h

/-- Settles O1, from the command words and from the rows of the table. -/
theorem decodeAgreesWithEncode : Obligations.DecodeAgreesWithEncode :=
  fun _ i => ⟨eq_encode_of_decode, fun h => h ▸ decode_encode i⟩

/- The two fields of a word -/

/-- A word is its two fields joined (R60). -/
theorem zeroField_append_opField (w : Word) : zeroField w ++ opField w = w := by
  unfold zeroField opField
  rw [BitVec.extractLsb'_append_extractLsb'_eq_extractLsb' (Nat.zero_add 8).symm]
  exact BitVec.extractLsb'_eq_self

theorem zeroField_encode (i : Instr) : zeroField (encode i) = 0 := by cases i <;> rfl

/-- With bits 31:8 zero the `op` field alone names the command (R63). -/
theorem eq_encode_iff_opField {w : Word} (hz : zeroField w = 0) (i : Instr) :
    w = encode i ↔ opField w = opField (encode i) := by
  refine ⟨congrArg opField, fun h => ?_⟩
  rw [← zeroField_append_opField w, hz, h, ← zeroField_encode i, zeroField_append_opField]

/-- The command of an `op` field, with bits 31:8 zero (R63). -/
theorem decode_of_opField {w : Word} {i : Instr} (hz : zeroField w = 0) (h : opField w = opField (encode i)) :
    decode w = .ok i := by
  rw [(eq_encode_iff_opField hz i).2 h, decode_encode]

/-- A word with a bit of `zero` set is refused for it (R64). -/
theorem decode_of_zeroField {w : Word} (h : zeroField w ≠ 0) : decode w = .error .upperBitsSet := by
  rw [← zeroField_append_opField w]
  exact Laws.Encoding.decode_upper _ h

/-- A word with bits 31:8 zero and the `op` of no command is refused as reserved (R63, R64). -/
theorem decode_of_reservedOp {w : Word} (hz : zeroField w = 0) (h : ∀ i, opField w ≠ opField (encode i)) :
    decode w = .error .reservedOp := by
  have hmiss : opcodeTable.find? (fun r => w &&& r.mask == r.pattern) = none :=
    List.find?_eq_none.2 fun r hr hit => h r.instr (congrArg opField ((match_opcodeRow_iff hr w).1 hit))
  simp [decode, hmiss, hz]

/-- Settles O2: a set upper bit refuses the word, else the `op` of a command decodes to it and any other `op` is reserved. -/
theorem opcodeMapByOp : Obligations.OpcodeMapByOp := by
  refine fun w => ⟨decode_of_zeroField, fun hz => ?_⟩
  split_ifs with h1 h2 h3 h4 h5
  · exact decode_of_opField (i := .init) hz h1
  · exact decode_of_opField (i := .encblk) hz h2
  · exact decode_of_opField (i := .decblk) hz h3
  · exact decode_of_opField (i := .cbcenc) hz h4
  · exact decode_of_opField (i := .cbcdec) hz h5
  · refine decode_of_reservedOp hz fun i => ?_
    cases i
    exacts [h1, h2, h3, h4, h5]

/-- Settles O3: the five command words, and words with a reserved `op` or an upper bit set. -/
theorem sampleWordsDecode : Obligations.SampleWordsDecode :=
  ⟨decode_encode .init, decode_encode .encblk, decode_encode .decblk, decode_encode .cbcenc, decode_encode .cbcdec,
    decode_of_reservedOp rfl (by intro i; cases i <;> decide), decode_of_reservedOp rfl (by intro i; cases i <;> decide),
    decode_of_zeroField (by decide), decode_of_zeroField (by decide)⟩

/- Legal and illegal words -/

/-- The legal words, read through their fields (R63). -/
theorem wordLegal_iff {w : Word} :
    wordLegal w = true ↔ zeroField w = 0 ∧ 1 ≤ (opField w).toNat ∧ (opField w).toNat ≤ 5 := by
  simp [wordLegal, and_assoc]

/-- An `op` field in 01 .. 05 is that of a command (R63). -/
theorem exists_opField_encode {o : Byte} (h1 : 1 ≤ o.toNat) (h5 : o.toNat ≤ 5) : ∃ i, o = opField (encode i) := by
  obtain h | h | h | h | h : o.toNat = 1 ∨ o.toNat = 2 ∨ o.toNat = 3 ∨ o.toNat = 4 ∨ o.toNat = 5 := by omega
  exacts [⟨.init, BitVec.eq_of_toNat_eq h⟩, ⟨.encblk, BitVec.eq_of_toNat_eq h⟩, ⟨.decblk, BitVec.eq_of_toNat_eq h⟩,
    ⟨.cbcenc, BitVec.eq_of_toNat_eq h⟩, ⟨.cbcdec, BitVec.eq_of_toNat_eq h⟩]

theorem wordLegal_encode (i : Instr) : wordLegal (encode i) = true := by cases i <;> decide

/-- The legal words are the five command words (R62 to R64). -/
theorem wordLegal_iff_encode {w : Word} : wordLegal w = true ↔ ∃ i, w = encode i := by
  refine ⟨fun h => ?_, fun ⟨i, hi⟩ => hi ▸ wordLegal_encode i⟩
  obtain ⟨hz, h1, h5⟩ := wordLegal_iff.1 h
  obtain ⟨i, hi⟩ := exists_opField_encode h1 h5
  exact ⟨i, (eq_encode_iff_opField hz i).2 hi⟩

/-- The decoder refuses an illegal word (R64). -/
theorem decode_of_illegal {w : Word} (h : wordLegal w = false) : ∃ e, decode w = .error e := by
  cases hd : decode w with
  | error e => exact ⟨e, rfl⟩
  | ok i => simp [eq_encode_of_decode hd, wordLegal_encode] at h

namespace Machine

open Sys2Proof.Safety

/- The write of a word to CMD -/

/-- A write to CMD in a core that is not busy issues the word (R61). -/
theorem hostWrite_cmd {s : State} (hb : s.busy = false) (w : Word) : hostWrite s (addr .cmd) w = issue w s := by
  simp [hostWrite, hb, locate_addr.1]

/-- An illegal word ends at once with InvalidCommand, at both levels (R64). -/
theorem issue_illegal {w : Word} (h : wordLegal w = false) (s : State) : issue w s = .next (fail .invalidCommand s) := by
  obtain ⟨e, hd⟩ := decode_of_illegal h
  simp only [issue, hd]

/-- At the command-atomic level a legal word is executed (R61, 20_memory R54). -/
theorem issue_command {s : State} {w : Word} {i : Instr} (hg : s.grain = .command) (hd : decode w = .ok i) :
    issue w s = exec i s := by
  simp only [issue, hd, hg]

/-- Settles O4: an illegal word decodes to no command, so its write is `fail`, whose effect the commands' laws give. -/
theorem illegalWordEndsAtOnce : Obligations.IllegalWordEndsAtOnce :=
  ⟨rfl, fun _ => wordLegal_iff_encode, fun s w hb hw =>
    ⟨_, (hostWrite_cmd hb w).trans (issue_illegal hw s), fail_effect _ s, ⟨rfl, rfl, rfl, rfl⟩, ⟨rfl, rfl, rfl, rfl⟩, rfl⟩⟩

/- The step that runs a command -/

/-- With no host action pending the step of a busy core is the core's part alone (70_reset R184). -/
theorem step_busy_of_script_nil {s : State} (hb : s.busy = true) (hs : s.script = []) : step s = coreTurn s := by
  simp [step, busyUnit, hostTurn, hb, hs]

/-- The last time unit of a command in progress executes it (70_reset R184 e). -/
theorem coreTurn_last {s : State} {i : Instr} (hl : s.left ≤ 1) (hd : decode s.cmd = .ok i) : coreTurn s = exec i s := by
  simp [coreTurn, endCommand, hl, hd]

/-- Settles O5: at the command-atomic level the step issues the word written, at the finer one it ends the command. -/
theorem stepRunsDecodedCommand : Obligations.StepRunsDecodedCommand :=
  ⟨fun _ _ _ _ _ hb hg hs ha hd => (step_cmdWrite hb hs ha).trans (issue_command hg hd),
    fun _ _ hb hs hl hd => (step_busy_of_script_nil hb hs).trans (coreTurn_last hl hd)⟩

/- The status word -/

/-- The value of two patterns joined. -/
theorem toNat_append_eq_add {m n : Nat} (x : BitVec m) (y : BitVec n) : (x ++ y).toNat = x.toNat * 2 ^ n + y.toNat := by
  rw [BitVec.toNat_append, ← Nat.shiftLeft_add_eq_or_of_lt y.isLt, Nat.shiftLeft_eq]

/-- STATUS as a number, from its fields (R67). -/
theorem toNat_statusWord (s : State) :
    (statusWord s).toNat = (if s.busy then 1 else 0) + (if s.keyed then 2 else 0) + 16 * s.err.code.toNat := by
  simp only [statusWord, toNat_append_eq_add, BitVec.toNat_ofBool]
  cases s.busy <;> cases s.keyed <;> simp <;> omega

/-- STATUS as the host reads it in a core that is not busy (R67). -/
theorem toNat_hostRead_status {s : State} (hb : s.busy = false) :
    (hostRead s (addr .status)).toNat = (if s.keyed then 2 else 0) + 16 * s.err.code.toNat := by
  rw [hostRead_status, toNat_statusWord, hb]
  simp

/-- Only a keyed core can have succeeded: INIT keys it and the other commands check for it (60_exceptions R167). -/
theorem exec_keyed_of_ok {i : Instr} {s t : State} (h : exec i s = .next t) (ht : t.err = .ok) :
    t.keyed = true := by
  rcases exec_cases i s with ⟨e, he, h'⟩ | h' | ⟨-, -, h'⟩ | ⟨y, hk, h'⟩ | ⟨y, hk, -, h'⟩ | ⟨y, hk, -, h'⟩ <;>
    (rw [h'] at h; cases h)
  · exact absurd ht he
  · exact absurd ht (by simp)
  · rfl
  all_goals exact hk

/-- A failed command leaves KEYED alone (60_exceptions R157). -/
theorem exec_keyed_of_error {i : Instr} {s t : State} (h : exec i s = .next t) (ht : t.err ≠ .ok) :
    t.keyed = s.keyed := by
  rcases exec_instance h with ⟨-, -, -, hk⟩ | ⟨-, -, rfl⟩
  · exact hk
  · exact absurd rfl ht

/-- Settles O12: after a command the core is not busy, and its KEYED and ERR give the value read. -/
theorem statusLayout : Obligations.StatusLayout := by
  refine ⟨toNat_statusWord, by rw [hostRead_status]; rfl, fun i s t h => ⟨fun ht => ?_, fun ht => ?_⟩,
    fun s t w hb hw h => ?_⟩
  · refine BitVec.eq_of_toNat_eq ?_
    rw [toNat_hostRead_status (exec_idle h).1, exec_keyed_of_ok h ht, ht]
    rfl
  · rw [toNat_hostRead_status (exec_idle h).1, exec_keyed_of_error h ht]
  · rw [hostWrite_cmd hb, issue_illegal hw] at h
    cases h
    exact toNat_hostRead_status rfl

end Machine

end Sys2Proof
end

section
/-! PROOFS of the statements about the constant tables (40_constant_tables). First a rotation by half a word, as G sees it; then the
generating rule on numbers, where 256 indices are cheap to evaluate, and the tables it gives. -/

namespace Sys2Proof

/- Rotation by half a word -/

/-- A pattern rotated by half its width has its two halves swapped. -/
theorem rotateLeft_append {n : Nat} (x y : BitVec n) : (x ++ y).rotateLeft n = y ++ x := by
  ext i hi
  have hn : n % (n + n) = n := Nat.mod_eq_of_lt (by omega)
  rw [BitVec.getElem_rotateLeft, BitVec.getElem_append]
  simp only [hn, BitVec.getElem_append]
  by_cases h : i < n
  · simp [h]
  · have hlow : i - n < n := by omega
    simp [h, hlow]

/-- A word rotated by 16 bits has its two pairs of bytes swapped (00_scope R9). -/
theorem rotateLeft_be32 (b0 b1 b2 b3 : Byte) : (be32 b0 b1 b2 b3).rotateLeft 16 = be32 b2 b3 b0 b1 := by
  have hpairs : ∀ a b c d : Byte, be32 a b c d = (a ++ b : BitVec 16) ++ (c ++ d : BitVec 16) := fun _ _ _ _ =>
    BitVec.append_assoc
  rw [hpairs, hpairs]
  exact rotateLeft_append (n := 16) (b0 ++ b1) (b2 ++ b3)

/-- The bytes of a word rotated by 16 bits, from byte 0 at the bottom: each is the byte two places on. -/
theorem bytes_rotateLeft (x : Word) :
    (x.rotateLeft 16).extractLsb' 0 8 = x.extractLsb' 16 8 ∧ (x.rotateLeft 16).extractLsb' 8 8 = x.extractLsb' 24 8 ∧
      (x.rotateLeft 16).extractLsb' 16 8 = x.extractLsb' 0 8 ∧ (x.rotateLeft 16).extractLsb' 24 8 = x.extractLsb' 8 8 := by
  have hrot : x.rotateLeft 16 = be32 (x.extractLsb' 8 8) (x.extractLsb' 0 8) (x.extractLsb' 24 8) (x.extractLsb' 16 8) := by
    rw [← rotateLeft_be32, be32_bytesBe]
  obtain ⟨h3, h2, h1, h0⟩ := parts_append (x.extractLsb' 8 8) (x.extractLsb' 0 8) (x.extractLsb' 24 8) (x.extractLsb' 16 8)
  rw [hrot]
  exact ⟨h0, h1, h2, h3⟩

namespace Machine

/-- The XOR of four bytes does not see its two pairs swapped. -/
theorem xor_swap_pairs (a b c d : Byte) : a ^^^ b ^^^ c ^^^ d = c ^^^ d ^^^ a ^^^ b := by
  rw [BitVec.xor_assoc (a ^^^ b), BitVec.xor_comm (a ^^^ b), ← BitVec.xor_assoc]

/-- Settles O19: the rotation swaps the S-box outputs in pairs, and G mixes them by the masks in a cyclic order, so that its four
output bytes are swapped in pairs too. -/
theorem swappedHalvesRotateG : Obligations.SwappedHalvesRotateG := by
  intro T x
  obtain ⟨h0, h1, h2, h3⟩ := bytes_rotateLeft x
  simp only [g]
  rw [h0, h1, h2, h3, rotateLeft_be32]
  congr 1 <;> exact xor_swap_pairs _ _ _ _

/- The generating rule on numbers -/

/-- `gfDouble` on the number a byte stands for: the bit that leaves the byte brings in the reduction polynomial, 163 hex (R83). -/
def doubleNat (y : Nat) : Nat := (2 * y) ^^^ (0x163 * (y / 128))

/-- Doubling a byte doubles its number (R83). -/
theorem toNat_gfDouble (y : Byte) : (gfDouble y).toNat = doubleNat y.toNat := by
  revert y
  decide +kernel

/-- `gfMul` on numbers, the second factor of k bits (R83). -/
def mulNat : Nat → Nat → Nat → Nat
  | 0, _, _ => 0
  | k + 1, y, z => (y * (z % 2)) ^^^ mulNat k (doubleNat y) (z / 2)

/-- The product by the k low bits of a number z is the product by z on numbers (R83). -/
theorem toNat_gfMulBits (k : Nat) (y : Byte) (z : Nat) :
    (gfMulBits y ((List.range k).map z.testBit)).toNat = mulNat k y.toNat z := by
  induction k generalizing y z with
  | zero => rfl
  | succ k ih =>
    have htail : z.testBit ∘ Nat.succ = (z / 2).testBit := funext (Nat.testBit_succ z)
    have hhead : (if z.testBit 0 then y else 0).toNat = y.toNat * (z % 2) := by
      rcases Nat.mod_two_eq_zero_or_one z with h | h <;> simp [h]
    rw [List.range_succ_eq_map, List.map_cons, List.map_map, htail, gfMulBits, BitVec.toNat_xor, hhead, ih, toNat_gfDouble,
      mulNat]

/-- The product of two bytes is the product of their numbers (R83). -/
theorem toNat_gfMul (y z : Byte) : (gfMul y z).toNat = mulNat 8 y.toNat z.toNat := toNat_gfMulBits 8 y z.toNat

/-- `gfPow` on numbers (R83). -/
def powNat (y n : Nat) : Nat :=
  (List.range 8).foldr (fun k acc => if n.testBit k then mulNat 8 y (mulNat 8 acc acc) else mulNat 8 acc acc) 1

/-- A power of a byte is that power of its number (R83). -/
theorem gfPow_eq_powNat (y : Byte) (n : Nat) : gfPow y n = BitVec.ofNat 8 (powNat y.toNat n) := by
  have htoNat : (gfPow y n).toNat = powNat y.toNat n := by
    refine (List.foldr_hom BitVec.toNat fun k acc => ?_).symm
    split <;> simp only [toNat_gfMul]
  rw [← htoNat, BitVec.ofNat_toNat, BitVec.setWidth_eq]

/-- The parity of a byte is that of its two nibbles' XOR, and 6996 hex holds the parities of the sixteen nibbles. -/
theorem parity_eq_testBit (x : Byte) : parity x = Nat.testBit 0x6996 ((x.toNat ^^^ (x.toNat / 16)) % 16) := by
  revert x
  decide +kernel

/- The tables -/

/-- S1 is what its rule generates (R81, R83). -/
theorem tables_s1_eq_generatedS1 : ∀ x, tables.s1 x = generatedS1 x := by
  simp only [generatedS1, gfPow_eq_powNat, matMul, parity_eq_testBit]
  decide +kernel

/-- S2 is what its rule generates (R82, R83). -/
theorem tables_s2_eq_generatedS2 : ∀ x, tables.s2 x = generatedS2 x := by
  simp only [generatedS2, gfPow_eq_powNat, matMul, parity_eq_testBit]
  decide +kernel

/-- KC[i] is the golden-ratio word rotated left by i (R87). -/
theorem tables_kc_eq_rotateLeft : ∀ i, i < 16 → tables.kc i = (0x9E3779B9 : Word).rotateLeft i := by decide

/-- Settles O17: the rule's worked check, and each table against its law. -/
theorem tablesObeyTheirLaws : Obligations.TablesObeyTheirLaws :=
  ⟨by decide +kernel, fun x => ⟨tables_s1_eq_generatedS1 x, tables_s2_eq_generatedS2 x⟩, tables_kc_eq_rotateLeft⟩

end Machine

end Sys2Proof
end

section
/-! PROOFS of the statements about the round function (41_round_function): the table form of G, and what F sees of its words. -/

namespace Sys2Proof

/-- Two patterns of four equal parts are XORed part by part. -/
theorem xor_parts {n : Nat} (a b c d a' b' c' d' : BitVec n) :
    (a ++ b ++ c ++ d) ^^^ (a' ++ b' ++ c' ++ d') = (a ^^^ a') ++ (b ^^^ b') ++ (c ^^^ c') ++ (d ^^^ d') := by
  simp only [BitVec.xor_append]

/-- Two words are XORed byte by byte (00_scope R9). -/
theorem be32_xor (a0 a1 a2 a3 b0 b1 b2 b3 : Byte) :
    be32 a0 a1 a2 a3 ^^^ be32 b0 b1 b2 b3 = be32 (a0 ^^^ b0) (a1 ^^^ b1) (a2 ^^^ b2) (a3 ^^^ b3) :=
  xor_parts a0 a1 a2 a3 b0 b1 b2 b3

namespace Machine

/-- R92: byte k of the XOR of the four table words is the byte Zk of the reference form. -/
theorem g_eq_gTable (T : Tables) (x : Word) : g T x = gTable T x := by
  simp only [gTable, ss0, ss1, ss2, ss3, be32_xor, g]

/-- Settles O18: the two forms agree byte by byte; the example evaluates the tables of this hardware. -/
theorem tableFormOfG : Obligations.TableFormOfG := ⟨g_eq_gTable, by decide +kernel⟩

/-- R96 a: F of the mixed words under a zero key. -/
theorem f_eq_f_mixed (T : Tables) (c d k0 k1 : Word) : f T c d k0 k1 = f T (c ^^^ k0) (d ^^^ k1) 0 0 := by
  have hzero : ∀ w : Word, w ^^^ 0 = w := fun _ => BitVec.xor_zero
  simp only [f, hzero]

/-- R96 b: equal mixed words cancel in U, so that G1 = G(0). -/
theorem f_snd_of_mixed_eq (T : Tables) {c d k0 k1 : Word} (h : c ^^^ k0 = d ^^^ k1) :
    (f T c d k0 k1).2 = g T (g T 0 + g T ((c ^^^ k0) + g T 0)) := by
  have hu : (c ^^^ k0) ^^^ (d ^^^ k1) = 0 := h ▸ BitVec.xor_self
  simp only [f, hu]

/-- Settles O20: the first example is F of four zero words, by R96 a; the addition that wraps in the second is evaluated. -/
theorem cornerCasesOfF : Obligations.CornerCasesOfF := by
  refine ⟨f_eq_f_mixed, fun T _ _ _ _ h => f_snd_of_mixed_eq T h, ?_, by decide +kernel⟩
  have hself : ∀ w : Word, w ^^^ w = 0 := fun _ => BitVec.xor_self
  rw [f_eq_f_mixed, hself, hself]
  decide +kernel

end Machine

end Sys2Proof
end

section
/-! PROOFS of the statements about the key schedule (42_key_schedule). First rotations of a pattern, and of two words joined;
then the working words and the words of the schedule; then what INIT does; last the sequencer's loop, whose position after
n rounds `KsAt` describes. -/

namespace Sys2Proof

/- Rotations -/

/-- A rotation to the right is one to the left by the rest of the width. -/
theorem rotateRight_eq_rotateLeft {w r : Nat} (x : BitVec w) (h0 : 0 < r) (hr : r < w) :
    x.rotateRight r = x.rotateLeft (w - r) := by
  rw [BitVec.rotateRight_def, BitVec.rotateLeft_def, Nat.mod_eq_of_lt hr, Nat.mod_eq_of_lt (by omega),
    Nat.sub_sub_self hr.le, BitVec.or_comm]

/-- Rotations to the left add up. -/
theorem rotateLeft_rotateLeft {w : Nat} (x : BitVec w) (r q : Nat) :
    (x.rotateLeft r).rotateLeft q = x.rotateLeft (r + q) := by
  refine BitVec.eq_of_getMsbD_eq fun i hi => ?_
  have hpos : (q + i) % w < w := Nat.mod_lt _ (by omega)
  simp only [BitVec.getMsbD_rotateLeft, hi, hpos, decide_true, Bool.true_and, Nat.add_mod_mod, Nat.add_assoc]

/-- A rotation by a multiple of the width changes nothing. -/
theorem rotateLeft_of_dvd {w r : Nat} (x : BitVec w) (h : w ∣ r) : x.rotateLeft r = x := by
  refine BitVec.eq_of_getMsbD_eq fun i hi => ?_
  rw [BitVec.getMsbD_rotateLeft, ← Nat.mod_add_mod, Nat.mod_eq_zero_of_dvd h, Nat.zero_add, Nat.mod_eq_of_lt hi,
    decide_eq_true hi, Bool.true_and]

/-- A rotation to the left by the width of the upper part brings that part to the bottom. -/
theorem rotateLeft_append_cast {n m : Nat} (hm : 0 < m) (x : BitVec n) (y : BitVec m) :
    (x ++ y).rotateLeft n = (y ++ x).cast (Nat.add_comm m n) := by
  ext i hi
  have hn : n % (n + m) = n := Nat.mod_eq_of_lt (by omega)
  rw [BitVec.getElem_rotateLeft, BitVec.getElem_cast, BitVec.getElem_append]
  simp only [hn, BitVec.getElem_append]
  by_cases h : i < n
  · simp [h]
  · have hlow : i - n < m := by omega
    simp [h, hlow]

/-- A pattern cut into an upper and a lower part. -/
theorem extractLsb'_append_self {n m : Nat} (x : BitVec (n + m)) : x.extractLsb' m n ++ x.extractLsb' 0 m = x := by
  rw [BitVec.extractLsb'_append_extractLsb'_eq_extractLsb' (Nat.zero_add m).symm, BitVec.extractLsb'_eq_self]

/-- `rotl64(C || D, 8)` on words (45_arithmetic R151): the first byte of C moves to the bottom. -/
theorem rotateLeft_words (c d : Word) : (c ++ d : DWord).rotateLeft 8 =
    (c.extractLsb' 0 24 ++ d.extractLsb' 24 8 : Word) ++ (d.extractLsb' 0 24 ++ c.extractLsb' 24 8 : Word) := by
  have hc : (c ++ d : DWord) = c.extractLsb' 24 8 ++ (c.extractLsb' 0 24 ++ d : BitVec 56) := by
    conv_lhs => rw [← extractLsb'_append_self (n := 8) (m := 24) c, BitVec.append_assoc, BitVec.cast_eq]
  have hd : (c.extractLsb' 0 24 ++ d : BitVec 56) =
      (c.extractLsb' 0 24 ++ d.extractLsb' 24 8 : Word) ++ d.extractLsb' 0 24 := by
    conv_lhs => rw [← extractLsb'_append_self (n := 8) (m := 24) d]
    rw [BitVec.append_assoc, BitVec.cast_eq]
  calc (c ++ d : DWord).rotateLeft 8
      = ((c.extractLsb' 0 24 ++ d : BitVec 56) ++ c.extractLsb' 24 8 : DWord) := by
        rw [hc]; exact rotateLeft_append_cast (by decide) _ _
    _ = _ := by rw [hd, BitVec.append_assoc, BitVec.cast_eq]

/-- `rotr64(A || B, 8)` on words (R151): the last byte of B moves to the top. -/
theorem rotateRight_words (a b : Word) : (a ++ b : DWord).rotateRight 8 =
    (b.extractLsb' 0 8 ++ a.extractLsb' 8 24 : Word) ++ (a.extractLsb' 0 8 ++ b.extractLsb' 8 24 : Word) := by
  have hb : (a ++ b : DWord) = (a ++ b.extractLsb' 8 24 : BitVec 56) ++ b.extractLsb' 0 8 := by
    rw [BitVec.append_assoc, BitVec.cast_eq, extractLsb'_append_self (n := 24) (m := 8) b]
  have ha : (a ++ b.extractLsb' 8 24 : BitVec 56) =
      a.extractLsb' 8 24 ++ (a.extractLsb' 0 8 ++ b.extractLsb' 8 24 : Word) := by
    conv_lhs => rw [← extractLsb'_append_self (n := 24) (m := 8) a, BitVec.append_assoc, BitVec.cast_eq]
  calc (a ++ b : DWord).rotateRight 8
      = (b.extractLsb' 0 8 ++ (a ++ b.extractLsb' 8 24 : BitVec 56) : DWord) := by
        rw [rotateRight_eq_rotateLeft _ (by decide) (by decide), hb]; exact rotateLeft_append_cast (by decide) _ _
    _ = _ := by rw [ha, BitVec.append_assoc, BitVec.cast_eq]

namespace Machine

open Sys2Proof.Safety

/-- Settles O21: a half rotated is two words joined, which the definition takes apart again. -/
theorem keyRotationsOnWords : Obligations.KeyRotationsOnWords := by
  intro w
  simp only [rotateFirst, rotateSecond, rotateRight_words, rotateLeft_words]
  rw [BitVec.extractLsb'_append_eq_left, BitVec.extractLsb'_append_eq_right, BitVec.extractLsb'_append_eq_left,
    BitVec.extractLsb'_append_eq_right]
  exact ⟨rfl, rfl⟩

/- The working words -/

/-- The first half of the working words, `A || B` (R100). -/
def KeyWords.first (w : KeyWords) : DWord := w.a ++ w.b

/-- The second half, `C || D` (R100). -/
def KeyWords.second (w : KeyWords) : DWord := w.c ++ w.d

/-- The working words are their two halves. -/
theorem KeyWords.eq_of_halves {w v : KeyWords} (h1 : w.first = v.first) (h2 : w.second = v.second) : w = v := by
  have hwords : ∀ u : KeyWords, u = ⟨u.first.extractLsb' 32 32, u.first.extractLsb' 0 32, u.second.extractLsb' 32 32,
      u.second.extractLsb' 0 32⟩ := fun u => by
    rw [first, second, BitVec.extractLsb'_append_eq_left, BitVec.extractLsb'_append_eq_right, BitVec.extractLsb'_append_eq_left,
      BitVec.extractLsb'_append_eq_right]
  rw [hwords w, hwords v, h1, h2]

@[simp] theorem rotateFirst_first (w : KeyWords) : (rotateFirst w).first = w.first.rotateRight 8 :=
  extractLsb'_append_self (n := 32) (m := 32) _

@[simp] theorem rotateFirst_second (w : KeyWords) : (rotateFirst w).second = w.second := rfl

@[simp] theorem rotateSecond_first (w : KeyWords) : (rotateSecond w).first = w.first := rfl

@[simp] theorem rotateSecond_second (w : KeyWords) : (rotateSecond w).second = w.second.rotateLeft 8 :=
  extractLsb'_append_self (n := 32) (m := 32) _

/-- Two rounds rotate the first half, then the second (R101). -/
theorem keyWordsAt_two_mul_succ (k : Block) (j : Nat) :
    keyWordsAt k (2 * (j + 1)) = rotateSecond (rotateFirst (keyWordsAt k (2 * j))) := by
  have heven : 2 * j % 2 = 0 := by omega
  have hodd : (2 * j + 1) % 2 ≠ 0 := by omega
  rw [Nat.mul_succ, keyWordsAt, keyWordsAt, keyRotate, if_neg hodd, keyRotate, if_pos heven]

/-- After 2j rounds the first half is rotated right by 8j bits, which is left by 56j, and the second left by 8j (R104 a). -/
theorem halves_keyWordsAt (k : Block) (j : Nat) :
    (keyWordsAt k (2 * j)).first = (KeyWords.load k).first.rotateLeft (56 * j) ∧
      (keyWordsAt k (2 * j)).second = (KeyWords.load k).second.rotateLeft (8 * j) := by
  induction j with
  | zero => exact ⟨(rotateLeft_of_dvd _ (Nat.dvd_zero _)).symm, (rotateLeft_of_dvd _ (Nat.dvd_zero _)).symm⟩
  | succ j ih =>
    obtain ⟨hfirst, hsecond⟩ := ih
    rw [keyWordsAt_two_mul_succ, rotateSecond_first, rotateSecond_second, rotateFirst_first, rotateFirst_second, hfirst,
      hsecond, rotateRight_eq_rotateLeft _ (by decide) (by decide), rotateLeft_rotateLeft, rotateLeft_rotateLeft]
    exact ⟨rfl, rfl⟩

/-- Settles O23: eight rotations of each half go round its 64 bits. -/
theorem workingWordsReturnToTheKey : Obligations.WorkingWordsReturnToTheKey := by
  intro k
  obtain ⟨hfirst, hsecond⟩ := halves_keyWordsAt k 8
  exact KeyWords.eq_of_halves (hfirst.trans (rotateLeft_of_dvd _ (by decide)))
    (hsecond.trans (rotateLeft_of_dvd _ (by decide)))

/- The words of the schedule -/

/-- An element of RK that exists (10_state R20). -/
theorem rkAt_eq_getElem (rk : Vector Word 32) {j : Nat} (h : j < 32) : rkAt rk j = rk[j] := by
  simp [rkAt, Vector.getD, h]

/-- Two schedules with the same 32 words. -/
theorem eq_of_rkAt {rk rk' : Vector Word 32} (h : ∀ j, j < 32 → rkAt rk j = rkAt rk' j) : rk = rk' :=
  Vector.ext fun j hj => by rw [← rkAt_eq_getElem, ← rkAt_eq_getElem, h j hj]

/-- RK all zero reads zero, past its end too. -/
theorem rkAt_replicate_zero (j : Nat) : rkAt (Vector.replicate 32 0) j = 0 := by
  by_cases h : j < 32
  · rw [rkAt_eq_getElem _ h, Vector.getElem_replicate]
  · simp [rkAt, Vector.getD, h]

/-- An element written in RK. -/
theorem rkAt_setIfInBounds (rk : Vector Word 32) {i j : Nat} (v : Word) (h : j < 32) :
    rkAt (rk.setIfInBounds i v) j = if i = j then v else rkAt rk j := by
  rw [rkAt_eq_getElem _ h, Vector.getElem_setIfInBounds, rkAt_eq_getElem _ h]

/-- Word j of KeySchedule (R101). -/
theorem rkAt_keySchedule (T : Tables) (k : Block) {j : Nat} (h : j < 32) :
    rkAt (keySchedule T k) j = keyScheduleWord T k j := by
  rw [rkAt_eq_getElem _ h, keySchedule]
  simp

/-- The two words of round i (R101). -/
theorem keyScheduleWord_even_odd (T : Tables) (k : Block) (i : Nat) :
    keyScheduleWord T k (2 * i) = (keyPair T i (keyWordsAt k i)).1 ∧
      keyScheduleWord T k (2 * i + 1) = (keyPair T i (keyWordsAt k i)).2 := by
  have heven : 2 * i / 2 = i ∧ 2 * i % 2 = 0 := by omega
  have hodd : (2 * i + 1) / 2 = i ∧ (2 * i + 1) % 2 ≠ 0 := by omega
  simp only [keyScheduleWord, heven, hodd, if_true, if_false, and_self]

/-- Settles O22: each word of the schedule is one of its round's pair. -/
theorem scheduleWords : Obligations.ScheduleWords := by
  refine fun T k => ⟨rfl, fun i hi => ?_⟩
  obtain ⟨heven, hodd⟩ := keyScheduleWord_even_odd T k i
  exact ⟨(rkAt_keySchedule T k (by omega)).trans heven, (rkAt_keySchedule T k (by omega)).trans hodd, rfl⟩

/- INIT -/

/- The first check of INIT that fails (R106 to R108) -/

theorem initCheck_of_keyed {s : State} (h : s.keyed = true) : initCheck s = .invalidState := if_pos h

theorem initCheck_of_klen {s : State} (h : s.keyed = false) (hk : s.klen ≠ 16) : initCheck s = .invalidKeyLength := by
  rw [initCheck, if_neg (by simp [h]), if_pos hk]

theorem initCheck_of_ivlen {s : State} (h : s.keyed = false) (hk : s.klen = 16) (hi : s.ivlen ≠ 16) :
    initCheck s = .invalidIVLength := by
  rw [initCheck, if_neg (by simp [h]), if_neg (not_not.2 hk), if_pos hi]

/-- INIT with a failed check (R107, R108). -/
theorem exec_init_of_failed {s : State} (h : initCheck s ≠ .ok) : exec .init s = .next (fail (initCheck s) s) := by
  rcases execInit_cases s with ⟨-, h'⟩ | ⟨hc, -⟩
  · exact h'
  · exact absurd hc h

/-- INIT with a failed check of a known kind has its common error effect (60_exceptions R157). -/
theorem exec_init_errorEffect {s : State} {e : ErrorKind} (hc : initCheck s = e) (he : e ≠ .ok) :
    ∃ t, exec .init s = .next t ∧ ErrorEffect e s t := by
  subst hc
  exact ⟨_, exec_init_of_failed he, fail_effect _ s⟩

/-- The success of INIT, apart from what it latches (R106). -/
theorem latchInstance_success (s : State) : SuccessEffect [] s (succeed [] (latchInstance s)) :=
  complete_success (by simp) rfl ⟨rfl, rfl, rfl, fun _ _ => rfl⟩ ⟨rfl, rfl, rfl⟩

/-- Settles O24: the checks passed, INIT latches and completes; else it is `fail` with the first that failed. -/
theorem initCompletesOrFails : Obligations.InitCompletesOrFails := fun s =>
  ⟨fun hn hk hi => ⟨_, exec_init_of_check (initCheck_ok.2 ⟨hn, hk, hi⟩), rfl, rfl, rfl, rfl, latchInstance_success s,
      ⟨rfl, rfl, rfl, rfl⟩, rfl⟩,
    fun hn => exec_init_errorEffect (initCheck_of_keyed hn) (by decide),
    fun hn hk => exec_init_errorEffect (initCheck_of_klen hn hk) (by decide),
    fun hn hk hi => exec_init_errorEffect (initCheck_of_ivlen hn hk hi) (by decide)⟩

/-- The key and IV staged in KEYBUF and IVBUF, where every byte outside OBUF is unchanged. -/
theorem stagedInputs_eq {s t : State} (h : StagingUnchanged s t) : keyInput t = keyInput s ∧ ivInput t = ivInput s := by
  obtain ⟨-, -, -, hmem⟩ := h
  exact ⟨congrArg Block.ofBytes (readBytes_congr fun i hi => hmem _ (writable_keybuf hi).2),
    congrArg Block.ofBytes (readBytes_congr fun i hi => hmem _ (writable_ivbuf hi).2)⟩

/-- Settles O25: INIT is `fail`, which leaves RK, the hidden words and the staged operands as they were for a later INIT. -/
theorem failedInitLatchesNothing : Obligations.FailedInitLatchesNothing := by
  intro s t hc h
  rw [exec_init_of_failed hc] at h
  cases h
  refine ⟨fail_effect _ s, initCheck_of_keyed, initCheck_of_klen, fun hn hk => initCheck_of_ivlen hn hk fun hi => ?_,
    ⟨rfl, rfl, rfl, rfl⟩, ⟨rfl, rfl, rfl, rfl⟩, rfl, fun hn hb hinv j => ?_, fun hn => ?_⟩
  · exact hc (initCheck_ok.2 ⟨hn, hk, hi⟩)
  · obtain ⟨-, -, hrk | ⟨hb', -⟩⟩ := hinv.2 hn
    · exact (congrArg (rkAt · j) hrk).trans (rkAt_replicate_zero j)
    · simp [hb] at hb'
  · obtain ⟨-, -, -, hstaging, -⟩ := fail_effect (initCheck s) s
    obtain ⟨hkey, hiv⟩ := stagedInputs_eq hstaging
    exact ⟨_, exec_init_of_check (initCheck_ok.2 ⟨hn, rfl, rfl⟩), rfl, hkey, hiv⟩

/- The sequencer's loop -/

/-- n + 1 steps of the sequencer, the last one apart. -/
theorem advance_succ (n : Nat) (s : State) : advance (n + 1) s = microStep (advance n s) := by
  induction n generalizing s with
  | zero => rfl
  | succ n ih => exact ih (microStep s)

/-- After n rounds of PHASE KS on key k: the working words of round n, and the words of the rounds before it in RK (R112). -/
structure KsAt (k : Block) (n : Nat) (s : State) : Prop where
  rnd : s.seq.rnd = n
  words : s.keyWords = keyWordsAt k n
  rk : ∀ j, j < 2 * n → rkAt s.rk j = keyScheduleWord tables k j

/-- One iteration of the loop (R101, R112). -/
theorem KsAt.ksRound {k : Block} {n : Nat} {s : State} (h : KsAt k n s) (hn : n < 16) : KsAt k (n + 1) (ksRound s) := by
  obtain ⟨hrnd, hwords, hrk⟩ := h
  obtain ⟨heven, hodd⟩ := keyScheduleWord_even_odd tables k n
  refine ⟨congrArg (· + 1) hrnd, ?_, fun j hj => ?_⟩
  · show keyRotate s.seq.rnd s.keyWords = _
    rw [hrnd, hwords, keyWordsAt]
  · show rkAt ((s.rk.setIfInBounds (2 * s.seq.rnd) _).setIfInBounds (2 * s.seq.rnd + 1) _) j = _
    rw [rkAt_setIfInBounds _ _ (by omega), rkAt_setIfInBounds _ _ (by omega), hrnd, hwords, ← heven, ← hodd]
    split_ifs with h1 h0
    · rw [h1]
    · rw [h0]
    · exact hrk j (by omega)

/-- A step of the sequencer before the last round of a running INIT is one iteration of the loop (R112). -/
theorem microStep_init {s : State} (hd : decode s.cmd = .ok .init) (hc : initCheck s = .ok) (hr : s.seq.rnd < 15) :
    microStep s = ksRound s := by
  have hl : seqAtLast .init s = false := by simp [seqAtLast, hr]
  simp [microStep, hd, commandCheck, hc, hl, seqRound]

/-- An accepted INIT whose checks pass stands at round 0 with the staged key loaded (R100, R112). -/
theorem ksAt_accept {s : State} (hc : initCheck s = .ok) (w : Word) : KsAt (keyInput s) 0 (accept .init w s) := by
  have haccept : accept .init w s =
      seqLoad .init { s with busy := true, cmd := w, left := latency .init s, seq := ⟨.ks, 0, 0⟩ } := if_pos hc
  rw [haccept]
  exact ⟨rfl, rfl, fun j hj => by omega⟩

/-- The loop up to its last round, which comes with the command's end (R112; log entry 6). -/
theorem ksAt_advance {s : State} {w : Word} (hd : decode w = .ok .init) (hc : initCheck s = .ok) {n : Nat} (hn : n ≤ 15) :
    KsAt (keyInput s) n (advance n (accept .init w s)) := by
  induction n with
  | zero => exact ksAt_accept hc w
  | succ n ih =>
    have h := ih (by omega)
    obtain ⟨-, -, -, -, haccept, -⟩ := accept_effect .init w s
    have hflight := haccept.trans (advance_inFlight n _)
    rw [advance_succ, microStep_init (by rw [hflight.cmd, hd]) (hflight.initCheck.trans hc) (by rw [h.rnd]; omega)]
    exact h.ksRound (by omega)

/-- Settles O50: after 16 rounds every word of RK is that of the schedule. -/
theorem sequencerExpandsTheKey : Obligations.SequencerExpandsTheKey := by
  intro s w hd hc
  obtain ⟨-, hwords, hrk⟩ := (ksAt_advance hd hc (Nat.le_refl 15)).ksRound (by decide)
  exact ⟨eq_of_rkAt fun j hj => (hrk j hj).trans (rkAt_keySchedule _ _ hj).symm, hwords⟩

end Machine

end Sys2Proof
end

section
/-! PROOFS of the statements about the block engine (43_block_core). First the halves and the rounds: `swappedRounds`, R116's loop
with a swap after every round, is what the round trip, the form without swap and the sequencer are compared through; then what
ENCBLK and DECBLK do; then what every command leaves alone; last the sequencer's loop, whose position after n rounds `BlkAt`
describes. -/

namespace Sys2Proof.Machine

open Sys2Proof.Safety

/- The halves of a block -/

/-- The halves of a block made of halves (43_block_core R115). -/
theorem Halves.load_toBlock (h : Halves) : Halves.load h.toBlock = h := by
  obtain ⟨h0, h1, h2, h3⟩ := word_ofWords h.l0 h.l1 h.r0 h.r1
  rw [load, toBlock, h0, h1, h2, h3]

/-- A block is made of its halves (R115). -/
theorem Halves.toBlock_load (x : Block) : (Halves.load x).toBlock = x := ofWords_word x

theorem Halves.swap_involutive : Function.Involutive Halves.swap := fun _ => rfl

/- The rounds -/

/-- A round undoes itself: it leaves the right half, and so F, as it was, and XORs the left half with F again (R123). -/
theorem feistelRound_feistelRound (T : Tables) (k : Word × Word) (h : Halves) :
    feistelRound T k (feistelRound T k h) = h := by
  simp only [feistelRound, BitVec.xor_assoc, BitVec.xor_self, BitVec.xor_zero]

/-- The rounds over a list of round-key pairs with a swap after every one, the last too. -/
def swappedRounds (T : Tables) (ks : List (Word × Word)) (h : Halves) : Halves :=
  ks.foldl (fun h k => (feistelRound T k h).swap) h

/-- The first round, then the rest. -/
theorem swappedRounds_cons (T : Tables) (k : Word × Word) (ks : List (Word × Word)) (h : Halves) :
    swappedRounds T (k :: ks) h = swappedRounds T ks (feistelRound T k h).swap := rfl

/-- The last round, after the rest. -/
theorem swappedRounds_concat (T : Tables) (ks : List (Word × Word)) (k : Word × Word) (h : Halves) :
    swappedRounds T (ks ++ [k]) h = (feistelRound T k (swappedRounds T ks h)).swap := List.foldl_concat ..

/-- R116's loop, whose last round has no swap, is the loop that swaps always with one swap more. -/
theorem rounds_eq_swap {ks : List (Word × Word)} (hks : ks ≠ []) (T : Tables) (h : Halves) :
    rounds T ks h = (swappedRounds T ks h).swap := by
  induction ks generalizing h with
  | nil => exact absurd rfl hks
  | cons k ks ih =>
    cases ks with
    | nil => rfl
    | cons k' ks => exact ih (List.cons_ne_nil k' ks) _

/-- Rounds in the opposite order, from the halves exchanged, undo rounds: the last one of them meets its own round. -/
theorem swappedRounds_reverse (T : Tables) (ks : List (Word × Word)) (h : Halves) :
    swappedRounds T ks.reverse (swappedRounds T ks h).swap = h.swap := by
  induction ks generalizing h with
  | nil => rfl
  | cons k ks ih =>
    rw [List.reverse_cons, swappedRounds_concat, swappedRounds_cons, ih, Halves.swap_involutive, feistelRound_feistelRound]

/-- The network with the pairs in the opposite order undoes the network (R123). -/
theorem rounds_reverse_rounds {ks : List (Word × Word)} (hks : ks ≠ []) (T : Tables) (h : Halves) :
    rounds T ks.reverse (rounds T ks h) = h := by
  rw [rounds_eq_swap (List.reverse_ne_nil_iff.2 hks), rounds_eq_swap hks, swappedRounds_reverse, Halves.swap_involutive]

theorem length_roundKeyPairs (rk : Vector Word 32) : (roundKeyPairs rk).length = 16 := by simp [roundKeyPairs]

theorem roundKeyPairs_ne_nil (rk : Vector Word 32) : roundKeyPairs rk ≠ [] :=
  List.ne_nil_of_length_pos (by rw [length_roundKeyPairs]; decide)

/-- Settles O28: the two networks have their pairs in opposite orders. -/
theorem blockRoundTrip : Obligations.BlockRoundTrip := by
  intro T rk x
  have hks := roundKeyPairs_ne_nil rk
  have hback := rounds_reverse_rounds (List.reverse_ne_nil_iff.2 hks) T (Halves.load x)
  rw [List.reverse_reverse] at hback
  rw [encryptBlock, decryptBlock, Halves.load_toBlock, encryptBlock, decryptBlock, Halves.load_toBlock, hback,
    rounds_reverse_rounds hks, Halves.toBlock_load]
  exact ⟨rfl, rfl⟩

/- The form without swap -/

/-- The form without swap from the halves exchanged, odd rounds for even ones, gives its result exchanged. -/
theorem unswappedRounds_not (T : Tables) (even : Bool) (ks : List (Word × Word)) (h : Halves) :
    unswappedRounds T (!even) ks h.swap = (unswappedRounds T even ks h).swap := by
  induction ks generalizing even h with
  | nil => rfl
  | cons k ks ih =>
    cases even with
    | false => exact ih true (feistelRound T k h.swap).swap
    | true => exact ih false (feistelRound T k h)

/-- The form without swap owes one swap for every round it made. -/
theorem unswappedRounds_eq_iterate (T : Tables) (ks : List (Word × Word)) (h : Halves) :
    unswappedRounds T true ks h = Halves.swap^[ks.length] (swappedRounds T ks h) := by
  induction ks generalizing h with
  | nil => rfl
  | cons k ks ih =>
    calc unswappedRounds T false ks (feistelRound T k h)
        = (unswappedRounds T true ks (feistelRound T k h).swap).swap := unswappedRounds_not T true ks (feistelRound T k h).swap
      _ = Halves.swap^[ks.length + 1] (swappedRounds T (k :: ks) h) := by
        rw [ih, Function.iterate_succ_apply', swappedRounds_cons]

/-- An even number of swaps is none, so that one exchange at the output is left (R118). -/
theorem unswappedBlock_eq_rounds {ks : List (Word × Word)} (hks : ks ≠ []) (heven : Even ks.length) (T : Tables) (x : Block) :
    unswappedBlock T ks x = (rounds T ks (Halves.load x)).toBlock := by
  rw [unswappedBlock, unswappedRounds_eq_iterate, Halves.swap_involutive.iterate_even heven, rounds_eq_swap hks, id]

/-- Settles O27: both networks have 16 rounds. -/
theorem unswappedFormAgrees : Obligations.UnswappedFormAgrees := by
  intro T rk x
  have hks := roundKeyPairs_ne_nil rk
  have heven : Even (roundKeyPairs rk).length := by rw [length_roundKeyPairs]; decide
  rw [encryptBlock, decryptBlock, unswappedBlock_eq_rounds hks heven,
    unswappedBlock_eq_rounds (List.reverse_ne_nil_iff.2 hks) (by rwa [List.length_reverse])]
  exact ⟨rfl, rfl⟩

/-- Settles O29: the four vectors, evaluated. -/
theorem knownAnswerBlocks : Obligations.KnownAnswerBlocks :=
  ⟨by decide +kernel, by decide +kernel, by decide +kernel, by decide +kernel⟩

/- ENCBLK and DECBLK -/

theorem blockCheck_of_unkeyed {s : State} (h : s.keyed = false) : blockCheck s = .invalidState := if_pos (by simp [h])

theorem blockCheck_of_ilen {s : State} (h : s.keyed = true) (hl : s.ilen ≠ 16) : blockCheck s = .invalidBlockSize := by
  rw [blockCheck, if_neg (by simp [h]), if_pos hl]

/-- How a command ends whose only checks are those of the block commands, with result block y when they pass (R120). -/
def EndsAsBlock (i : Instr) (y : Block) (s : State) : Prop :=
  (blockCheck s ≠ .ok ∧ exec i s = .next (fail (blockCheck s) s)) ∨ (blockCheck s = .ok ∧ exec i s = .next (blockResult y s))

theorem encblk_endsAsBlock (s : State) : EndsAsBlock .encblk (encryptBlock tables s.rk (blockInput s)) s :=
  execEncblk_cases s

theorem decblk_endsAsBlock (s : State) : EndsAsBlock .decblk (decryptBlock tables s.rk (blockInput s)) s :=
  execDecblk_cases s

/-- The checks passed, the result block is in OBUF and the rest of the state is as it was (R120). -/
theorem EndsAsBlock.completes {i : Instr} {y : Block} {s : State} (h : EndsAsBlock i y s) (hk : s.keyed = true)
    (hl : s.ilen = 16) :
    ∃ t, exec i s = .next t ∧ t.olen = 16 ∧ SuccessEffect y.toBytes s t ∧ InstanceUnchanged s t ∧ KeyWordsUnchanged s t ∧
      t.chain = s.chain := by
  obtain ⟨hc, -⟩ | ⟨-, h⟩ := h
  · exact absurd (blockCheck_ok.2 ⟨hk, hl⟩) hc
  · exact ⟨_, h, blockResult_olen y s, blockResult_success y s, blockResult_frame y s⟩

/-- A check that fails with a known kind has its common error effect (60_exceptions R157). -/
theorem EndsAsBlock.fails {i : Instr} {y : Block} {s : State} (h : EndsAsBlock i y s) {e : ErrorKind}
    (hc : blockCheck s = e) (he : e ≠ .ok) : ∃ t, exec i s = .next t ∧ ErrorEffect e s t := by
  subst hc
  obtain ⟨-, h⟩ | ⟨hc, -⟩ := h
  · exact ⟨_, h, fail_effect _ s⟩
  · exact absurd hc he

/-- A block command has no chaining (R120). -/
theorem EndsAsBlock.chain {i : Instr} {y : Block} {s t : State} (h : EndsAsBlock i y s) (ht : exec i s = .next t) :
    t.chain = s.chain := by
  obtain ⟨-, h⟩ | ⟨-, h⟩ := h <;> (rw [h] at ht; cases ht; rfl)

/-- Settles O30: ENCBLK ends with the encrypted block or as the first check that fails says. -/
theorem encblkCompletesOrFails : Obligations.EncblkCompletesOrFails := fun s =>
  ⟨(encblk_endsAsBlock s).completes, fun hk => (encblk_endsAsBlock s).fails (blockCheck_of_unkeyed hk) (by decide),
    fun hk hl => (encblk_endsAsBlock s).fails (blockCheck_of_ilen hk hl) (by decide)⟩

/-- Settles O31: DECBLK ends with the decrypted block or as the first check that fails says. -/
theorem decblkCompletesOrFails : Obligations.DecblkCompletesOrFails := fun s =>
  ⟨(decblk_endsAsBlock s).completes, fun hk => (decblk_endsAsBlock s).fails (blockCheck_of_unkeyed hk) (by decide),
    fun hk hl => (decblk_endsAsBlock s).fails (blockCheck_of_ilen hk hl) (by decide)⟩

/- What every command leaves alone -/

/-- Every command leaves the staging registers, the bytes outside OBUF and the host's own fields alone, and every one but INIT
the key-schedule words (R122, 44_cbc_wrapper R142). -/
theorem exec_frame {i : Instr} {s t : State} (h : exec i s = .next t) :
    StagingUnchanged s t ∧ HostUnchanged s t ∧ (i ≠ .init → KeyWordsUnchanged s t) := by
  rcases exec_cases i s with ⟨e, -, h'⟩ | h' | ⟨hi, -, h'⟩ | ⟨y, -, h'⟩ | ⟨y, -, hl, h'⟩ | ⟨y, -, hl, h'⟩ <;>
    (rw [h'] at h; cases h)
  · exact ⟨complete_staging _ (by simp) s, ⟨rfl, rfl, rfl⟩, fun _ => ⟨rfl, rfl, rfl, rfl⟩⟩
  · exact ⟨complete_staging _ (by simp) (afterCbcDecrypt _ s), ⟨rfl, rfl, rfl⟩, fun _ => ⟨rfl, rfl, rfl, rfl⟩⟩
  · exact ⟨complete_staging _ (by simp) (latchInstance s), ⟨rfl, rfl, rfl⟩, fun hn => absurd hi hn⟩
  · obtain ⟨-, -, -, hstaging, hhost⟩ := blockResult_success y s
    exact ⟨hstaging, hhost, fun _ => (blockResult_frame y s).2.1⟩
  · exact ⟨complete_staging _ hl (afterCbcEncrypt y s), ⟨rfl, rfl, rfl⟩, fun _ => ⟨rfl, rfl, rfl, rfl⟩⟩
  · exact ⟨complete_staging _ hl (afterCbcDecrypt _ s), ⟨rfl, rfl, rfl⟩, fun _ => ⟨rfl, rfl, rfl, rfl⟩⟩

/-- INIT leaves the halves and CHAIN alone (42_key_schedule R106). -/
theorem exec_init_frame {s t : State} (h : exec .init s = .next t) : HalvesUnchanged s t ∧ t.chain = s.chain := by
  rcases execInit_cases s with ⟨-, h'⟩ | ⟨-, h'⟩ <;>
    (rw [exec_init, h'] at h; cases h; exact ⟨⟨rfl, rfl, rfl, rfl⟩, rfl⟩)

/-- Only INIT writes KEY, IV, RK and KEYED (10_state R18 to R20, R28). -/
theorem exec_instance_of_ne_init {i : Instr} {s t : State} (hi : i ≠ .init) (h : exec i s = .next t) :
    InstanceUnchanged s t := by
  obtain hs | ⟨hi', -⟩ := exec_instance h
  · exact hs
  · exact absurd hi' hi

/-- Settles O47, from the frames of all commands, of INIT and of the block commands. -/
theorem commandFrames : Obligations.CommandFrames := by
  intro i s t h
  obtain ⟨hstaging, hhost, hwords⟩ := exec_frame h
  refine ⟨hstaging, hhost, exec_idle h, fun hi => ⟨exec_instance_of_ne_init hi h, hwords hi⟩, ?_, ?_⟩
  · rintro rfl
    exact (exec_init_frame h).1
  · rintro (rfl | rfl | rfl)
    · exact (exec_init_frame h).2
    · exact (encblk_endsAsBlock s).chain h
    · exact (decblk_endsAsBlock s).chain h

/- The sequencer's loop -/

/-- The round-key pairs of the first n rounds of a block command, in the order it takes them (R126, R127). -/
def pairsTaken (i : Instr) (rk : Vector Word 32) (n : Nat) : List (Word × Word) :=
  (List.range n).map fun r => roundKeyPair rk (pairIndex i r)

theorem pairsTaken_succ (i : Instr) (rk : Vector Word 32) (n : Nat) :
    pairsTaken i rk (n + 1) = pairsTaken i rk n ++ [roundKeyPair rk (pairIndex i n)] := by
  rw [pairsTaken, List.range_succ, List.map_append]; rfl

/-- ENCBLK takes the pairs in ascending order (R127). -/
theorem pairsTaken_encblk (rk : Vector Word 32) : pairsTaken .encblk rk 16 = roundKeyPairs rk := rfl

/-- DECBLK takes them in descending order (R117, R127). -/
theorem pairsTaken_decblk (rk : Vector Word 32) : pairsTaken .decblk rk 16 = (roundKeyPairs rk).reverse := by
  have hrange : (List.range 16).reverse = (List.range 16).map (15 - ·) := by decide
  rw [roundKeyPairs, ← List.map_reverse, hrange, List.map_map]
  rfl

/-- A round of the engine before the last one swaps (R116). -/
theorem engineRound_of_lt (i : Instr) (rk : Vector Word 32) {n : Nat} (h : n < 15) (x : Halves) :
    engineRound i rk n x = (feistelRound tables (roundKeyPair rk (pairIndex i n)) x).swap := if_pos h

/-- The last round of the engine completes R116's loop. -/
theorem engineRound_last (i : Instr) (rk : Vector Word 32) (x : Halves) :
    engineRound i rk 15 (swappedRounds tables (pairsTaken i rk 15) x) = rounds tables (pairsTaken i rk 16) x := by
  have hsucc : pairsTaken i rk 16 = pairsTaken i rk 15 ++ [roundKeyPair rk (pairIndex i 15)] := pairsTaken_succ i rk 15
  rw [hsucc, rounds_eq_swap (by simp), swappedRounds_concat, Halves.swap_involutive]
  rfl

/-- After n rounds of PHASE BLKOP on block x with schedule rk: every round so far has swapped (R126). -/
structure BlkAt (i : Instr) (rk : Vector Word 32) (x : Block) (n : Nat) (s : State) : Prop where
  rnd : s.seq.rnd = n
  schedule : s.rk = rk
  halves : s.halves = swappedRounds tables (pairsTaken i rk n) (Halves.load x)

/-- One round before the last (R126). -/
theorem BlkAt.blkRound {i : Instr} {rk : Vector Word 32} {x : Block} {n : Nat} {s : State} (h : BlkAt i rk x n s)
    (hn : n < 15) : BlkAt i rk x (n + 1) (blkRound i s) := by
  obtain ⟨hrnd, hrk, hhalves⟩ := h
  refine ⟨congrArg (· + 1) hrnd, hrk, ?_⟩
  show engineRound i s.rk s.seq.rnd s.halves = _
  rw [hrnd, hrk, hhalves, engineRound_of_lt i rk hn, pairsTaken_succ, swappedRounds_concat]

/-- The last round leaves what R116's loop leaves. -/
theorem BlkAt.halves_blkRound {i : Instr} {rk : Vector Word 32} {x : Block} {s : State} (h : BlkAt i rk x 15 s) :
    (Machine.blkRound i s).halves = rounds tables (pairsTaken i rk 16) (Halves.load x) := by
  obtain ⟨hrnd, hrk, hhalves⟩ := h
  show engineRound i s.rk s.seq.rnd s.halves = _
  rw [hrnd, hrk, hhalves, engineRound_last]

section
variable {i : Instr} (hi : i = .encblk ∨ i = .decblk)
include hi

/-- A step of the sequencer before the last round of a block command is one round of PHASE BLKOP (R126). -/
theorem microStep_block {s : State} (hd : decode s.cmd = .ok i) (hc : blockCheck s = .ok) (hr : s.seq.rnd < 15) :
    microStep s = blkRound i s := by
  have hl : seqAtLast i s = false := by simp [seqAtLast, hr]
  obtain rfl | rfl := hi <;> simp [microStep, hd, commandCheck, hc, hl, seqRound]

/-- An accepted block command whose checks pass stands at round 0 with its input block loaded (R115, R126). -/
theorem blkAt_accept {s : State} (hc : blockCheck s = .ok) (w : Word) :
    BlkAt i s.rk (blockInput s) 0 (accept i w s) := by
  have haccept : accept i w s =
      seqLoad i { s with busy := true, cmd := w, left := latency i s, seq := ⟨phaseOf i, 0, 0⟩ } := by
    obtain rfl | rfl := hi <;> exact if_pos hc
  rw [haccept]
  obtain rfl | rfl := hi <;> exact ⟨rfl, rfl, rfl⟩

/-- The loop up to its last round, which comes with the command's end (R126; log entry 6). -/
theorem blkAt_advance {s : State} {w : Word} (hd : decode w = .ok i) (hc : blockCheck s = .ok) {n : Nat} (hn : n ≤ 15) :
    BlkAt i s.rk (blockInput s) n (advance n (accept i w s)) := by
  induction n with
  | zero => exact blkAt_accept hi hc w
  | succ n ih =>
    have h := ih (by omega)
    obtain ⟨-, -, -, -, haccept, -⟩ := accept_effect i w s
    have hflight := haccept.trans (advance_inFlight n _)
    rw [advance_succ, microStep_block hi (by rw [hflight.cmd, hd]) (hflight.blockCheck.trans hc) (by rw [h.rnd]; omega)]
    exact h.blkRound (by omega)

/-- PHASE BLKOP leaves the network over the pairs in the command's order (R126). -/
theorem halves_blkop {s : State} {w : Word} (hd : decode w = .ok i) (hc : blockCheck s = .ok) :
    (blkRound i (advance 15 (accept i w s))).halves =
      rounds tables (pairsTaken i s.rk 16) (Halves.load (blockInput s)) :=
  (blkAt_advance hi hd hc (Nat.le_refl 15)).halves_blkRound

end

/-- Settles O51: the two commands take the pairs in the orders of EncryptBlock and DecryptBlock. -/
theorem sequencerRunsTheBlock : Obligations.SequencerRunsTheBlock := by
  refine fun s w hc => ⟨fun hd => ?_, fun hd => ?_⟩
  · rw [halves_blkop (.inl rfl) hd hc, pairsTaken_encblk, encryptBlock]
  · rw [halves_blkop (.inr rfl) hd hc, pairsTaken_decblk, decryptBlock]

end Sys2Proof.Machine
end

section
/-! PROOFS of the statements about the CBC wrapper (44_cbc_wrapper). First byte sequences as blocks; then Pad and Unpad, both read
through `unpad_eq_ok_iff`; then the chaining of blocks; then CBCENC and CBCDEC, whose result `cbcOutcome` gives and whose effect
`exec_cbc` says once; last the sequencer's loop, whose position after b blocks and r rounds `CbcAt` describes. -/

namespace Sys2Proof

/- Byte sequences as blocks -/

/-- The bytes of blocks split into blocks are the blocks (20_memory R46). -/
theorem blocksOf_bytesOf (bs : List Block) : blocksOf (bytesOf bs) = bs := by
  induction bs with
  | nil => rfl
  | cons b bs ih => rw [bytesOf_cons, blocksOf_append (length_toBytes b), ofBytes_toBytes, ih]

/-- The blocks of a sequence of whole blocks joined are the sequence (R46). -/
theorem bytesOf_blocksOf {l : List Byte} (h : l.length % 16 = 0) : bytesOf (blocksOf l) = l := by
  induction hn : l.length / 16 generalizing l with
  | zero =>
    obtain rfl : l = [] := List.length_eq_zero_iff.1 (by omega)
    rfl
  | succ n ih =>
    have hfirst : (l.take 16).length = 16 := by rw [List.length_take]; omega
    have hrest : bytesOf (blocksOf (l.drop 16)) = l.drop 16 :=
      ih (by rw [List.length_drop]; omega) (by rw [List.length_drop]; omega)
    calc bytesOf (blocksOf l)
        = bytesOf (blocksOf (l.take 16 ++ l.drop 16)) := by rw [List.take_append_drop]
      _ = l.take 16 ++ l.drop 16 := by rw [blocksOf_append hfirst, bytesOf_cons, toBytes_ofBytes hfirst, hrest]
      _ = l := List.take_append_drop 16 l

/-- Byte j of block b in the bytes of blocks (R45). -/
theorem getD_bytesOf {bs : List Block} {b j : Nat} (hb : b < bs.length) (hj : j < 16) :
    (bytesOf bs).getD (16 * b + j) 0 = bs[b].toBytes.getD j 0 := by
  induction bs generalizing b with
  | nil => exact absurd hb (Nat.not_lt_zero b)
  | cons x bs ih =>
    rw [bytesOf_cons]
    cases b with
    | zero => rw [Nat.mul_zero, Nat.zero_add, List.getD_append _ _ _ _ (by rwa [length_toBytes])]; rfl
    | succ b =>
      rw [List.getD_append_right _ _ _ _ (by rw [length_toBytes]; omega), length_toBytes,
        show 16 * (b + 1) + j - 16 = 16 * b + j by omega, ih (by simpa using hb)]
      rfl

namespace Machine

open Sys2Proof.Safety

/- Pad and Unpad -/

/-- A pad length fits a byte. -/
theorem toNat_padByte {n : Nat} (h : n ≤ 16) : (BitVec.ofNat 8 n).toNat = n := by
  rw [BitVec.toNat_ofNat, Nat.mod_eq_of_lt (by omega)]

/-- The last n bytes of a sequence with n copies of a byte appended are that byte. -/
theorem getD_append_replicate {p q : List Byte} {n j : Nat} {v : Byte} (h : q = p ++ List.replicate n v) (h1 : 1 ≤ j)
    (hj : j ≤ n) : q.getD (q.length - j) 0 = v := by
  subst h
  rw [List.length_append, List.length_replicate, List.getD_append_right _ _ _ _ (by omega),
    List.getD_replicate _ (by omega)]

/-- A byte of known value is that number as a byte. -/
theorem eq_ofNat_of_toNat {b : Byte} {n : Nat} (h : b.toNat = n) : b = BitVec.ofNat 8 n := by
  rw [← h, BitVec.ofNat_toNat, BitVec.setWidth_eq]

/-- A sequence whose last n bytes all have the value n ends in n copies of the byte n. -/
theorem eq_take_append_replicate {q : List Byte} {n : Nat} (hn : n ≤ q.length)
    (h : ∀ b ∈ q.drop (q.length - n), b.toNat = n) :
    q = q.take (q.length - n) ++ List.replicate n (BitVec.ofNat 8 n) := by
  have hpad : q.drop (q.length - n) = List.replicate n (BitVec.ofNat 8 n) :=
    List.eq_replicate_iff.2 ⟨by rw [List.length_drop]; omega, fun b hb => eq_ofNat_of_toNat (h b hb)⟩
  rw [← hpad, List.take_append_drop]

/-- Unpad removes a pad of n bytes n, 1 <= n <= 16 (44_cbc_wrapper R132). -/
theorem unpad_append_replicate (p : List Byte) {n : Nat} (h1 : 1 ≤ n) (h16 : n ≤ 16) :
    unpad (p ++ List.replicate n (BitVec.ofNat 8 n)) = .ok p := by
  have hlast := getD_append_replicate (p := p) (v := BitVec.ofNat 8 n) rfl (Nat.le_refl 1) h1
  have hlen : (p ++ List.replicate n (BitVec.ofNat 8 n)).length - n = p.length := by simp
  have hall : (List.replicate n (BitVec.ofNat 8 n)).all (fun b => b.toNat == n) = true := by
    simp [toNat_padByte h16]
  simp only [unpad]
  rw [hlast, toNat_padByte h16, hlen, List.drop_left, List.take_left, if_neg (by omega), if_pos hall]

/-- A sequence of at least 16 bytes that Unpad accepts is its result with such a pad appended (R132). -/
theorem eq_append_of_unpad {q p : List Byte} (hq : 16 ≤ q.length) (h : unpad q = .ok p) :
    ∃ n, 1 ≤ n ∧ n ≤ 16 ∧ q = p ++ List.replicate n (BitVec.ofNat 8 n) := by
  simp only [unpad] at h
  split at h
  · cases h
  · split at h
    · next hall =>
      cases h
      exact ⟨_, by omega, by omega, eq_take_append_replicate (by omega) fun b hb => by
        simpa using List.all_eq_true.1 hall b hb⟩
    · cases h

/-- A non-empty sequence of whole blocks has at least 16 bytes. -/
theorem length_of_blocks {q : List Byte} (hq : q ≠ []) (hlen : q.length % 16 = 0) : 16 ≤ q.length := by
  have := List.length_pos_of_ne_nil hq
  omega

/-- A last byte n out of 1..16, or one of the last n bytes that is not n, ends Unpad with InvalidPadding (R132). -/
theorem unpad_eq_error {q : List Byte} {n : Nat} (hlen : 16 ≤ q.length) (hn : n = (q.getD (q.length - 1) 0).toNat)
    (h : n < 1 ∨ 16 < n ∨ ∃ j, 1 ≤ j ∧ j ≤ n ∧ (q.getD (q.length - j) 0).toNat ≠ n) :
    unpad q = .error .invalidPadding := by
  obtain he | ⟨_, -, -, -, hok⟩ := unpad_cases q
  · exact he
  · obtain ⟨m, h1, h16, hq⟩ := eq_append_of_unpad hlen hok
    have hbyte : ∀ j, 1 ≤ j → j ≤ m → (q.getD (q.length - j) 0).toNat = m := fun j hj1 hj => by
      rw [getD_append_replicate hq hj1 hj, toNat_padByte h16]
    obtain rfl : n = m := hn.trans (hbyte 1 (Nat.le_refl 1) h1)
    obtain h | h | ⟨j, hj1, hj, hne⟩ := h
    · omega
    · omega
    · exact absurd (hbyte j hj1 hj) hne

/-- The last n bytes of a sequence, counted from its end. -/
theorem exists_getD_of_mem_drop {q : List Byte} {n : Nat} {b : Byte} (hb : b ∈ q.drop (q.length - n)) :
    ∃ j, 1 ≤ j ∧ j ≤ n ∧ q.getD (q.length - j) 0 = b := by
  obtain ⟨k, hk, rfl⟩ := List.getElem_of_mem hb
  rw [List.length_drop] at hk
  refine ⟨q.length - (q.length - n + k), by omega, by omega, ?_⟩
  rw [Nat.sub_sub_self (by omega), List.getD_eq_getElem _ _ (by omega), List.getElem_drop]

/-- Settles O33: an accepted sequence is one with a pad appended, all of whose last bytes are the pad length. -/
theorem unpadValidates : Obligations.UnpadValidates := by
  intro q n hq hlen hn
  have hlong := length_of_blocks hq hlen
  refine ⟨unpad_eq_error hlong hn, fun h1 h16 h => ?_⟩
  have hpad : q = q.take (q.length - n) ++ List.replicate n (BitVec.ofNat 8 n) :=
    eq_take_append_replicate (by omega) fun b hb => by
      obtain ⟨j, hj1, hj, rfl⟩ := exists_getD_of_mem_drop hb
      exact h j hj1 hj
  exact (congrArg unpad hpad).trans (unpad_append_replicate _ h1 h16)

/-- Settles O32: Pad appends `padLength` bytes. -/
theorem padAddsItsLength : Obligations.PadAddsItsLength := fun p =>
  ⟨padLength p.length, (padLength_pos p.length).1, (padLength_pos p.length).2, rfl, rfl, length_pad p⟩

/-- Unpad undoes Pad (R133). -/
theorem unpad_pad (p : List Byte) : unpad (pad p) = .ok p :=
  unpad_append_replicate p (padLength_pos p.length).1 (padLength_pos p.length).2

/-- Pad undoes a successful Unpad: the pad it removed made the length a multiple of 16 (R133). -/
theorem pad_of_unpad {q p : List Byte} (hq : 16 ≤ q.length) (hlen : q.length % 16 = 0) (h : unpad q = .ok p) : pad p = q := by
  obtain ⟨n, h1, h16, rfl⟩ := eq_append_of_unpad hq h
  rw [List.length_append, List.length_replicate] at hlen
  have hn : padLength p.length = n := by unfold padLength; omega
  rw [pad, hn]

/-- Settles O34, from the two directions. -/
theorem unpadUndoesPad : Obligations.UnpadUndoesPad :=
  ⟨unpad_pad, fun _ _ hq hlen => pad_of_unpad (length_of_blocks hq hlen) hlen⟩

/- Chaining -/

/-- Chained decryption undoes chained encryption from the same chaining value: both pass on the ciphertext block (R136, R143). -/
theorem cbcDecryptBlocks_cbcEncryptBlocks (T : Tables) (rk : Vector Word 32) (prev : Block) (ms : List Block) :
    cbcDecryptBlocks T rk prev (cbcEncryptBlocks T rk prev ms) = ms := by
  induction ms generalizing prev with
  | nil => rfl
  | cons m ms ih =>
    rw [cbcEncryptBlocks, cbcDecryptBlocks, ih, (blockRoundTrip T rk _).1, xor16, xor16, BitVec.xor_assoc, BitVec.xor_self,
      BitVec.xor_zero]

/-- CbcDecrypt of a legal length is Unpad of the chained decryption (R135). -/
theorem cbcDecrypt_eq_unpad (T : Tables) (rk : Vector Word 32) (iv : Block) {cx : List Byte} (h0 : cx.length ≠ 0)
    (h16 : cx.length % 16 = 0) : cbcDecrypt T rk iv cx = unpad (bytesOf (cbcDecryptBlocks T rk iv (blocksOf cx))) :=
  if_neg (by omega)

/-- Settles O35: the blocks of the ciphertext decrypt to those of the padded plaintext. -/
theorem cbcRoundTrip : Obligations.CbcRoundTrip := by
  intro T rk iv p
  have hlen := length_cbcEncrypt T rk iv p
  have hblocks : cbcDecryptBlocks T rk iv (blocksOf (cbcEncrypt T rk iv p)) = blocksOf (pad p) := by
    rw [cbcEncrypt, blocksOf_bytesOf, cbcDecryptBlocks_cbcEncryptBlocks]
  rw [cbcDecrypt_eq_unpad T rk iv (by omega) (by omega), hblocks, bytesOf_blocksOf (by rw [length_pad]; omega), unpad_pad]

/-- Settles O37: the IV meets the first block alone, by XOR. -/
theorem ivChangesOnlyTheFirstBlock : Obligations.IvChangesOnlyTheFirstBlock := by
  intro T rk iv e cs
  cases cs with
  | nil => rfl
  | cons c cs => simp only [cbcDecryptBlocks, xor16, BitVec.xor_assoc]

/- CBCENC and CBCDEC -/

/-- CbcDecrypt of a legal length fails only with InvalidPadding (R139). -/
theorem cbcDecrypt_error {T : Tables} {rk : Vector Word 32} {iv : Block} {cx : List Byte} {e : ErrorKind}
    (h0 : cx.length ≠ 0) (h16 : cx.length % 16 = 0) (h : cbcDecrypt T rk iv cx = .error e) : e = .invalidPadding := by
  rw [cbcDecrypt_eq_unpad T rk iv h0 h16] at h
  obtain he | ⟨_, -, -, -, hok⟩ := unpad_cases (bytesOf (cbcDecryptBlocks T rk iv (blocksOf cx)))
  · rw [he] at h; cases h; rfl
  · rw [hok] at h; cases h

/-- What CBCENC (R138) and CBCDEC (R139) end with: the first check that fails, else what the CBC function gives. -/
def cbcOutcome (i : Instr) (s : State) : Except ErrorKind (List Byte) :=
  if commandCheck i s = .ok then
    match i with
    | .cbcenc => .ok (cbcEncrypt tables s.rk s.iv (bufferInput s))
    | _ => cbcDecrypt tables s.rk s.iv (bufferInput s)
  else .error (commandCheck i s)

/-- A CBC command that ends in `t` with result or error kind r (R138, R139). -/
def CbcEffect (s t : State) : Except ErrorKind (List Byte) → Prop
  | .ok y => SuccessEffect y s t ∧ InstanceUnchanged s t ∧ KeyWordsUnchanged s t
  | .error e => ErrorEffect e s t

theorem cbcOutcome_of_failed {i : Instr} {s : State} {e : ErrorKind} (hc : commandCheck i s = e) (he : e ≠ .ok) :
    cbcOutcome i s = .error e := by
  subst hc
  exact if_neg he

theorem cbcOutcome_cbcenc {s : State} (hc : cbcencCheck s = .ok) :
    cbcOutcome .cbcenc s = .ok (cbcEncrypt tables s.rk s.iv (bufferInput s)) := if_pos hc

theorem cbcOutcome_cbcdec {s : State} (hc : cbcdecCheck s = .ok) :
    cbcOutcome .cbcdec s = cbcDecrypt tables s.rk s.iv (bufferInput s) := if_pos hc

/-- CBCDEC of a legal ciphertext that CbcDecrypt refuses ends with InvalidPadding (R139). -/
theorem cbcOutcome_cbcdec_error {s : State} {e : ErrorKind} (hc : cbcdecCheck s = .ok)
    (he : cbcDecrypt tables s.rk s.iv (bufferInput s) = .error e) : cbcOutcome .cbcdec s = .error .invalidPadding := by
  obtain ⟨-, -, h0, h16⟩ := cbcdecCheck_ok.1 hc
  rw [← length_bufferInput] at h0 h16
  rw [cbcOutcome_cbcdec hc, he, cbcDecrypt_error h0 h16 he]

/-- A success whose result fits, from a state with the hidden words of a CBC command. -/
theorem cbcEffect_succeed {s u : State} {y : List Byte} (hl : y.length ≤ Config.bufBytes)
    (hu : ∃ h c, u = { s.setHalves h with chain := c }) : CbcEffect s (succeed y u) (.ok y) := by
  obtain ⟨h, c, rfl⟩ := hu
  exact ⟨complete_success hl rfl ⟨rfl, rfl, rfl, fun _ _ => rfl⟩ ⟨rfl, rfl, rfl⟩, ⟨rfl, rfl, rfl, rfl⟩, rfl, rfl, rfl, rfl⟩

/-- CBCENC answers a state with the effect of its outcome (R138). -/
theorem exec_cbcenc_effect (s : State) : ∃ t, exec .cbcenc s = .next t ∧ CbcEffect s t (cbcOutcome .cbcenc s) := by
  obtain ⟨hc, h⟩ | ⟨hc, h⟩ := execCbcenc_cases s
  · exact ⟨_, h, (cbcOutcome_of_failed (i := .cbcenc) rfl hc).symm ▸ fail_effect _ s⟩
  · refine ⟨_, h, ?_⟩
    rw [cbcOutcome_cbcenc hc]
    refine cbcEffect_succeed ?_ ⟨_, _, rfl⟩
    have hfit := (cbcencCheck_ok.1 hc).2
    have hb : Config.bufBytes = 4096 := rfl
    rw [length_cbcEncrypt, length_bufferInput]
    omega

/-- CBCDEC answers a state with the effect of its outcome (R139). -/
theorem exec_cbcdec_effect (s : State) : ∃ t, exec .cbcdec s = .next t ∧ CbcEffect s t (cbcOutcome .cbcdec s) := by
  obtain ⟨hc, h⟩ | ⟨hc, ⟨e, he⟩, h⟩ | ⟨hc, y, hy, h⟩ := execCbcdec_cases s
  · exact ⟨_, h, (cbcOutcome_of_failed (i := .cbcdec) rfl hc).symm ▸ fail_effect _ s⟩
  · refine ⟨_, h, ?_⟩
    rw [cbcOutcome_cbcdec_error hc he]
    exact complete_error rfl ⟨rfl, rfl, rfl, fun _ _ => rfl⟩ ⟨rfl, rfl, rfl, rfl⟩ ⟨rfl, rfl, rfl⟩
  · refine ⟨_, h, ?_⟩
    rw [cbcOutcome_cbcdec hc, hy]
    refine cbcEffect_succeed ?_ ⟨_, _, rfl⟩
    obtain ⟨-, -, n, -, -, hlen⟩ := cbcDecrypt_length hy
    have hfit := (cbcdecCheck_ok.1 hc).2.1
    rw [length_bufferInput] at hlen
    omega

/-- A CBC command whose outcome is known answers a state with that effect. -/
theorem exec_cbc_of_outcome {i : Instr} (hi : i = .cbcenc ∨ i = .cbcdec) {s : State} {r : Except ErrorKind (List Byte)}
    (hr : cbcOutcome i s = r) : ∃ t, exec i s = .next t ∧ CbcEffect s t r := by
  subst hr
  obtain rfl | rfl := hi
  exacts [exec_cbcenc_effect s, exec_cbcdec_effect s]

/-- The state a CBC command answers shows its outcome. -/
theorem cbcEffect_of_exec {i : Instr} (hi : i = .cbcenc ∨ i = .cbcdec) {s t : State} (h : exec i s = .next t) :
    CbcEffect s t (cbcOutcome i s) := by
  obtain ⟨t', h', he⟩ := exec_cbc_of_outcome hi (s := s) rfl
  rw [h] at h'
  cases h'
  exact he

theorem cbcencCheck_of_unkeyed {s : State} (h : s.keyed = false) : cbcencCheck s = .invalidState := if_pos (by simp [h])

theorem cbcencCheck_of_ilen {s : State} (h : s.keyed = true) (hl : Config.bufBytes - 1 < s.ilen.toNat) :
    cbcencCheck s = .bufferCapacity := by
  rw [cbcencCheck, if_neg (by simp [h]), if_pos hl]

/-- Settles O39: the outcome of CBCENC after each result of its checks. -/
theorem cbcencCompletesOrFails : Obligations.CbcencCompletesOrFails := by
  refine fun s => ⟨fun hk hl => ?_, fun hk => ?_, fun hk hl => ?_⟩
  · obtain ⟨t, h, hs, hi, hw⟩ := exec_cbc_of_outcome (.inl rfl) (cbcOutcome_cbcenc (cbcencCheck_ok.2 ⟨hk, hl⟩))
    exact ⟨t, h, hs, olen_of_cbcenc h hs.1, hi, hw⟩
  · exact exec_cbc_of_outcome (.inl rfl) (cbcOutcome_of_failed (cbcencCheck_of_unkeyed hk) (by decide))
  · exact exec_cbc_of_outcome (.inl rfl) (cbcOutcome_of_failed (cbcencCheck_of_ilen hk hl) (by decide))

theorem cbcdecCheck_of_unkeyed {s : State} (h : s.keyed = false) : cbcdecCheck s = .invalidState := if_pos (by simp [h])

theorem cbcdecCheck_of_capacity {s : State} (h : s.keyed = true) (hl : Config.bufBytes < s.ilen.toNat) :
    cbcdecCheck s = .bufferCapacity := by
  rw [cbcdecCheck, if_neg (by simp [h]), if_pos hl]

theorem cbcdecCheck_of_length {s : State} (h : s.keyed = true) (hl : s.ilen.toNat ≤ Config.bufBytes)
    (hb : s.ilen.toNat = 0 ∨ s.ilen.toNat % 16 ≠ 0) : cbcdecCheck s = .invalidCiphertextLength := by
  rw [cbcdecCheck, if_neg (by simp [h]), if_neg (by omega), if_pos hb]

/-- Settles O40: the outcome of CBCDEC after each result of its checks and of CbcDecrypt. -/
theorem cbcdecCompletesOrFails : Obligations.CbcdecCompletesOrFails := by
  refine fun s => ⟨fun y hk hl h0 h16 hy => ?_, fun e hk hl h0 h16 he => ?_, fun hk => ?_, fun hk hl => ?_, fun hk hl hb => ?_⟩
  · exact exec_cbc_of_outcome (.inr rfl) ((cbcOutcome_cbcdec (cbcdecCheck_ok.2 ⟨hk, hl, h0, h16⟩)).trans hy)
  · exact exec_cbc_of_outcome (.inr rfl) (cbcOutcome_cbcdec_error (cbcdecCheck_ok.2 ⟨hk, hl, h0, h16⟩) he)
  · exact exec_cbc_of_outcome (.inr rfl) (cbcOutcome_of_failed (cbcdecCheck_of_unkeyed hk) (by decide))
  · exact exec_cbc_of_outcome (.inr rfl) (cbcOutcome_of_failed (cbcdecCheck_of_capacity hk hl) (by decide))
  · exact exec_cbc_of_outcome (.inr rfl) (cbcOutcome_of_failed (cbcdecCheck_of_length hk hl hb) (by decide))

/-- Settles O41: Unpad fails on the chained decryption, so CbcDecrypt does. -/
theorem badPaddingIsRejected : Obligations.BadPaddingIsRejected := by
  rintro s q n hk hl h0 h16 hq hn hbad
  have hlen : q.length = s.ilen.toNat := by
    rw [hq, length_bytesOf, length_cbcDecryptBlocks, length_blocksOf, length_bufferInput]
    omega
  have hpad : cbcDecrypt tables s.rk s.iv (bufferInput s) = .error .invalidPadding := by
    rw [cbcDecrypt_eq_unpad _ _ _ (by rwa [length_bufferInput]) (by rwa [length_bufferInput]), ← hq,
      unpad_eq_error (by omega) hn hbad]
  exact exec_cbc_of_outcome (.inr rfl) (cbcOutcome_cbcdec_error (cbcdecCheck_ok.2 ⟨hk, hl, h0, h16⟩) hpad)

/-- Settles O42: the length check fails before anything is written but the common error effect. -/
theorem badCiphertextLengthIsRejected : Obligations.BadCiphertextLengthIsRejected := by
  intro s hk hl hb
  have hc := cbcdecCheck_of_length hk hl hb
  obtain ⟨-, h⟩ | ⟨hok, -⟩ | ⟨hok, -⟩ := execCbcdec_cases s
  · rw [hc] at h
    exact ⟨_, h, fail_effect _ s, ⟨rfl, rfl, rfl, rfl⟩, ⟨rfl, rfl, rfl, rfl⟩, rfl⟩
  · rw [hc] at hok; cases hok
  · rw [hc] at hok; cases hok

/- The result as a function of its operands -/

/-- The outcome of a CBC command depends on KEYED, ILEN, RK, IV and IBUF[0..ILEN-1] alone (R144). -/
theorem cbcOutcome_congr {i : Instr} (hi : i = .cbcenc ∨ i = .cbcdec) {s s' : State} (hk : s.keyed = s'.keyed)
    (hl : s.ilen = s'.ilen) (hrk : s.rk = s'.rk) (hiv : s.iv = s'.iv) (hin : bufferInput s = bufferInput s') :
    cbcOutcome i s = cbcOutcome i s' := by
  have hc : commandCheck i s = commandCheck i s' := by
    obtain rfl | rfl := hi
    · exact show cbcencCheck s = cbcencCheck s' by rw [cbcencCheck, cbcencCheck, hk, hl]
    · exact show cbcdecCheck s = cbcdecCheck s' by rw [cbcdecCheck, cbcdecCheck, hk, hl]
  unfold cbcOutcome
  rw [hc, hrk, hiv, hin]

/-- Two states that show one output have the same OLEN and OBUF. -/
theorem sameOutput {t t' : State} {out : List Byte} (h : OutputIs t out) (h' : OutputIs t' out) :
    t.olen = t'.olen ∧ ∀ k, k < Config.bufBytes → obufByte t k = obufByte t' k := by
  obtain ⟨hlen, hbytes⟩ := h
  obtain ⟨hlen', hbytes'⟩ := h'
  exact ⟨BitVec.eq_of_toNat_eq (hlen.trans hlen'.symm), fun k hk => (hbytes k hk).trans (hbytes' k hk).symm⟩

/-- Two ends with one outcome show the same ERR, OLEN and OBUF. -/
theorem CbcEffect.sameResult {s t s' t' : State} {r : Except ErrorKind (List Byte)} (h : CbcEffect s t r)
    (h' : CbcEffect s' t' r) : t.err = t'.err ∧ t.olen = t'.olen ∧ ∀ k, k < Config.bufBytes → obufByte t k = obufByte t' k := by
  cases r with
  | error e =>
    obtain ⟨he, ho, -⟩ := h
    obtain ⟨he', ho', -⟩ := h'
    exact ⟨he.trans he'.symm, sameOutput ho ho'⟩
  | ok y =>
    obtain ⟨⟨he, ho, -⟩, -⟩ := h
    obtain ⟨⟨he', ho', -⟩, -⟩ := h'
    exact ⟨he.trans he'.symm, sameOutput ho ho'⟩

/-- Settles O43: in a keyed core RK is the schedule of KEY, and the rest of the operands agree. -/
theorem cbcResultsAreDeterminate : Obligations.CbcResultsAreDeterminate := by
  intro i s t s' t' hi hinv hinv' hk hk' hkey hiv hl hin h h'
  have hrk : s.rk = s'.rk := by rw [hinv.1 hk, hinv'.1 hk', hkey]
  have hbuf : bufferInput s = bufferInput s' := by
    rw [bufferInput, bufferInput, ← hl]
    exact readBytes_congr hin
  have hr := cbcOutcome_congr hi (hk.trans hk'.symm) hl hrk hiv hbuf
  exact (cbcEffect_of_exec hi h).sameResult (hr ▸ cbcEffect_of_exec hi h')

/- The round trip on the machine -/

/-- A copy of OBUF[0..OLEN-1] in IBUF, of OLEN in ILEN, makes an output the next input. -/
theorem bufferInput_of_copy {t u : State} {out : List Byte} (ho : OutputIs t out) (hfit : out.length ≤ Config.bufBytes)
    (hl : u.ilen = t.olen) (hin : ∀ i, i < t.olen.toNat → ibufByte u i = obufByte t i) : bufferInput u = out := by
  obtain ⟨hlen, hbytes⟩ := ho
  refine List.ext_getElem (by rw [length_bufferInput, hl, hlen]) fun i h1 h2 => ?_
  rw [length_bufferInput, hl] at h1
  rw [← List.getD_eq_getElem _ 0, ← List.getD_eq_getElem _ 0, bufferInput, getD_readBytes _ _ (by rwa [hl])]
  exact (hin i h1).trans (hbytes i (by omega))

/-- Settles O36: what CBCENC leaves in OBUF, copied to IBUF, is what CBCDEC undoes. -/
theorem cbcRoundTripOnTheMachine : Obligations.CbcRoundTripOnTheMachine := by
  refine ⟨cbcRoundTrip, fun s t u hk hl h hinst hlen hcopy => ?_⟩
  have henc : CbcEffect s t (.ok _) := cbcOutcome_cbcenc (cbcencCheck_ok.2 ⟨hk, hl⟩) ▸ cbcEffect_of_exec (.inl rfl) h
  obtain ⟨⟨-, hout, -⟩, -⟩ := henc
  obtain ⟨-, hiv, hrk, hkeyed⟩ := hinst
  have hb : Config.bufBytes = 4096 := rfl
  have hsize := length_cbcEncrypt tables s.rk s.iv (bufferInput s)
  rw [length_bufferInput] at hsize
  have hilen : u.ilen.toNat = 16 * (s.ilen.toNat / 16 + 1) := by rw [hlen, hout.1, hsize]
  have hin := bufferInput_of_copy hout (by omega) hlen hcopy
  have hcheck : cbcdecCheck u = .ok := cbcdecCheck_ok.2 ⟨hkeyed.trans hk, by omega, by omega, by omega⟩
  have hdec : cbcOutcome .cbcdec u = .ok (bufferInput s) := by
    rw [cbcOutcome_cbcdec hcheck, hin, hrk, hiv, cbcRoundTrip]
  obtain ⟨v, hv, ⟨hok, hplain, -⟩, -⟩ := exec_cbc_of_outcome (.inr rfl) hdec
  exact ⟨v, hv, hok, hplain⟩

/- The sequencer's loop -/

/-- The block that enters the engine for input block m after chaining value c: XORed with c for encryption (R134, R135). -/
def cbcEnter (i : Instr) (c m : Block) : Block :=
  match i with
  | .cbcenc => xor16 m c
  | _ => m

/-- The direction of the engine (R134, R135). -/
def cbcCipher (i : Instr) (rk : Vector Word 32) (x : Block) : Block :=
  match i with
  | .cbcenc => encryptBlock tables rk x
  | _ => decryptBlock tables rk x

/-- The result block for the engine's y: XORed with the chaining value for decryption. -/
def cbcLeave (i : Instr) (c y : Block) : Block :=
  match i with
  | .cbcenc => y
  | _ => xor16 y c

/-- The next chaining value, the ciphertext block in both directions (R136). -/
def cbcPass (i : Instr) (m y : Block) : Block :=
  match i with
  | .cbcenc => y
  | _ => m

/-- The result blocks of a CBC command from chaining value `prev` (R134, R135). -/
def cbcBlocks (i : Instr) (rk : Vector Word 32) (prev : Block) (ms : List Block) : List Block :=
  match i with
  | .cbcenc => cbcEncryptBlocks tables rk prev ms
  | _ => cbcDecryptBlocks tables rk prev ms

@[simp] theorem length_cbcBlocks (i : Instr) (rk : Vector Word 32) (prev : Block) (ms : List Block) :
    (cbcBlocks i rk prev ms).length = ms.length := by
  cases i <;> simp [cbcBlocks]

/-- Both chainings make one result block and pass one chaining value on. -/
theorem cbcBlocks_cons (i : Instr) (rk : Vector Word 32) (prev m : Block) (ms : List Block) :
    cbcBlocks i rk prev (m :: ms) = cbcLeave i prev (cbcCipher i rk (cbcEnter i prev m)) ::
      cbcBlocks i rk (cbcPass i m (cbcCipher i rk (cbcEnter i prev m))) ms := by
  cases i <;> rfl

/-- Loading a block (R149). -/
theorem cbcLoad_eq (i : Instr) (b : Nat) (s : State) :
    cbcLoad i b s = s.setHalves (Halves.load (cbcEnter i s.chain ((cbcInputs i s).getD b 0))) := by
  cases i <;> rfl

/-- The input blocks of a CBC command do not change while bytes of OBUF do (R149). -/
theorem cbcInputs_obufOnly {s t : State} (i : Instr) (hl : t.ilen = s.ilen) (hm : ObufOnly s.mem t.mem)
    (hfit : s.ilen.toNat ≤ Config.bufBytes) : cbcInputs i t = cbcInputs i s := by
  have hin : bufferInput t = bufferInput s := by
    rw [bufferInput, bufferInput, hl]
    exact readBytes_obufOnly hm fun _ hk => (writable_ibuf (by omega)).2
  unfold cbcInputs
  rw [hin]

/-- A block is done: its result bytes in OBUF, the next chaining value in CHAIN, the position at the next block (R149). -/
def blockStored (out : List Byte) (next : Block) (s : State) : State :=
  { s with
    mem := s.mem.writeBytes (obufBase + 16 * s.seq.blk) out
    chain := next
    seq := { s.seq with rnd := 0, blk := s.seq.blk + 1 } }

/-- The end of a block (R149). -/
theorem cbcBlockEnd_eq (i : Instr) (s : State) :
    cbcBlockEnd i s = cbcLoad i (s.seq.blk + 1) (blockStored (cbcLeave i s.chain s.halves.toBlock).toBytes
      (cbcPass i ((cbcInputs i s).getD s.seq.blk 0) s.halves.toBlock) s) := by
  cases i <;> rfl

theorem cbcInputs_setHalves (i : Instr) (s : State) (h : Halves) : cbcInputs i (s.setHalves h) = cbcInputs i s := by
  cases i <;> rfl

/-- The last round of a block that fits OBUF, where y is what the engine leaves: the block is stored and the next one loaded. -/
theorem cbcRound_last (i : Instr) {s : State} {y next : Block} {out : List Byte} (hr : s.seq.rnd = 15)
    (hfit : s.ilen.toNat ≤ Config.bufBytes) (hroom : 16 * (s.seq.blk + 1) ≤ Config.bufBytes)
    (hy : (engineRound i s.rk 15 s.halves).toBlock = y) (hout : (cbcLeave i s.chain y).toBytes = out)
    (hnext : cbcPass i ((cbcInputs i s).getD s.seq.blk 0) y = next) :
    cbcRound i s = (blockStored out next s).setHalves
      (Halves.load (cbcEnter i next ((cbcInputs i s).getD (s.seq.blk + 1) 0))) := by
  have hlast : cbcRound i s = cbcBlockEnd i (s.setHalves (engineRound i s.rk 15 s.halves)) := by
    rw [cbcRound, if_neg (by omega), hr]
  have hlen : out.length = 16 := hout ▸ length_toBytes _
  have hinputs : cbcInputs i (blockStored out next s) = cbcInputs i s :=
    cbcInputs_obufOnly i rfl (ObufOnly.writeBytes _ (by omega)) hfit
  rw [hlast, cbcBlockEnd_eq, State.halves_setHalves, hy, State.setHalves_chain, hout, cbcInputs_setHalves,
    State.setHalves_seq, hnext, cbcLoad_eq, ← hinputs]
  rfl

/-- The result blocks of a CBC command in state `s`. -/
def cbcResults (i : Instr) (s : State) : List Block := cbcBlocks i s.rk s.iv (cbcInputs i s)

/-- After b blocks and r rounds of the next one of a CBC command accepted in state `s₀` (R149): the results of the b blocks stand
in OBUF, chaining the inputs that remain from CHAIN gives the results that remain, every round so far has swapped, and of the
memory OBUF alone has changed. -/
structure CbcAt (i : Instr) (s₀ : State) (b r : Nat) (s : State) : Prop where
  rnd : s.seq.rnd = r
  blk : s.seq.blk = b
  schedule : s.rk = s₀.rk
  ilen : s.ilen = s₀.ilen
  mem : ObufOnly s₀.mem s.mem
  halves : s.halves = swappedRounds tables (pairsTaken i s₀.rk r)
    (Halves.load (cbcEnter i s.chain ((cbcInputs i s₀).getD b 0)))
  remaining : cbcBlocks i s₀.rk s.chain ((cbcInputs i s₀).drop b) = (cbcResults i s₀).drop b
  output : ∀ k, k < 16 * b → obufByte s k = (bytesOf (cbcResults i s₀)).getD k 0

/-- A round of the engine before the last one continues R116's loop. -/
theorem engineRound_swappedRounds (i : Instr) (rk : Vector Word 32) {n : Nat} (h : n < 15) (x : Halves) :
    engineRound i rk n (swappedRounds tables (pairsTaken i rk n) x) = swappedRounds tables (pairsTaken i rk (n + 1)) x := by
  rw [engineRound_of_lt i rk h, pairsTaken_succ, swappedRounds_concat]

/-- One round before the last of a block (R149). -/
theorem CbcAt.round {i : Instr} {s₀ s : State} {b r : Nat} (h : CbcAt i s₀ b r s) (hr : r < 15) :
    CbcAt i s₀ b (r + 1) (cbcRound i s) := by
  obtain ⟨hrnd, hblk, hrk, hilen, hmem, hhalves, hremaining, houtput⟩ := h
  have hround : cbcRound i s =
      { s.setHalves (engineRound i s.rk s.seq.rnd s.halves) with seq := { s.seq with rnd := s.seq.rnd + 1 } } :=
    if_pos (by omega)
  rw [hround]
  refine ⟨congrArg (· + 1) hrnd, hblk, hrk, hilen, hmem, ?_, hremaining, houtput⟩
  show engineRound i s.rk s.seq.rnd s.halves = _
  rw [hrnd, hrk, hhalves]
  exact engineRound_swappedRounds i _ hr _

/-- The bytes of one more block written to OBUF after those of the first b. -/
theorem read_writeBlock {m : Memory} (hm : m.wf) {bs : List Block} {b : Nat} (hb : b < bs.length) {out : List Byte}
    (hout : bs[b].toBytes = out) (h : ∀ k, k < 16 * b → m.read (obufBase + k) = (bytesOf bs).getD k 0) {k : Nat}
    (hk : k < 16 * (b + 1)) : (m.writeBytes (obufBase + 16 * b) out).read (obufBase + k) = (bytesOf bs).getD k 0 := by
  subst hout
  by_cases hlt : k < 16 * b
  · rw [Memory.read_writeBytes_out (by omega), h k hlt]
  · obtain ⟨j, rfl⟩ := Nat.exists_eq_add_of_le (Nat.le_of_not_lt hlt)
    rw [← Nat.add_assoc, Memory.read_writeBytes_in hm (by rw [length_toBytes]; omega), getD_bytesOf hb (by omega)]

section
variable {i : Instr} (hi : i = .cbcenc ∨ i = .cbcdec)
include hi

/-- The rounds of one block are the cipher in the command's direction (R116, R117, R127). -/
theorem toBlock_rounds_cbc (rk : Vector Word 32) (x : Block) :
    (rounds tables (pairsTaken i rk 16) (Halves.load x)).toBlock = cbcCipher i rk x := by
  obtain rfl | rfl := hi
  · exact show _ = encryptBlock tables rk x by rw [encryptBlock]; rfl
  · have hpairs : pairsTaken .cbcdec rk 16 = (roundKeyPairs rk).reverse := pairsTaken_decblk rk
    exact show _ = decryptBlock tables rk x by rw [hpairs, decryptBlock]

/-- BLK runs over the input blocks, which fit OBUF (R149). -/
theorem blocks_fit {s : State} (hc : commandCheck i s = .ok) :
    s.ilen.toNat ≤ Config.bufBytes ∧ blockCount i s = (cbcInputs i s).length ∧ 16 * blockCount i s ≤ Config.bufBytes := by
  have hb : Config.bufBytes = 4096 := rfl
  obtain rfl | rfl := hi
  · have hl := (cbcencCheck_ok.1 hc).2
    have hn : (cbcInputs .cbcenc s).length = s.ilen.toNat / 16 + 1 := by
      rw [cbcInputs, length_blocksOf, length_pad, length_bufferInput, Nat.mul_div_cancel_left _ (by decide)]
    simp only [blockCount]
    omega
  · have hl := (cbcdecCheck_ok.1 hc).2.1
    have hn : (cbcInputs .cbcdec s).length = s.ilen.toNat / 16 := by
      rw [cbcInputs, length_blocksOf, length_bufferInput]
      simp
    simp only [blockCount]
    omega

/-- The last round of a block: its result goes to OBUF, its ciphertext block to CHAIN, and the next block is loaded (R149). -/
theorem CbcAt.blockEnd {s₀ s : State} {b : Nat} (hwf : s₀.mem.wf) (hc : commandCheck i s₀ = .ok) (h : CbcAt i s₀ b 15 s)
    (hb : b < blockCount i s₀) : CbcAt i s₀ (b + 1) 0 (cbcRound i s) := by
  obtain ⟨hrnd, hblk, hrk, hilen, hmem, hhalves, hremaining, houtput⟩ := h
  obtain ⟨hfit, hcount, hroom⟩ := blocks_fit hi hc
  have hbm : b < (cbcInputs i s₀).length := hcount ▸ hb
  have hbr : b < (cbcResults i s₀).length := by rwa [cbcResults, length_cbcBlocks]
  have hinputs : cbcInputs i s = cbcInputs i s₀ := cbcInputs_obufOnly i hilen hmem hfit
  have hinput : (cbcInputs i s).getD s.seq.blk 0 = (cbcInputs i s₀)[b] := by
    rw [hinputs, hblk, List.getD_eq_getElem _ _ hbm]
  have hroom' : 16 * (s.seq.blk + 1) ≤ Config.bufBytes := by omega
  have hy : (engineRound i s.rk 15 s.halves).toBlock =
      cbcCipher i s₀.rk (cbcEnter i s.chain (cbcInputs i s₀)[b]) := by
    rw [hrk, hhalves, engineRound_last, toBlock_rounds_cbc hi, List.getD_eq_getElem _ _ hbm]
  rw [List.drop_eq_getElem_cons hbm, cbcBlocks_cons, ← hy, List.drop_eq_getElem_cons hbr, List.cons.injEq] at hremaining
  obtain ⟨hresult, hremaining⟩ := hremaining
  -- A name for the 16 bytes keeps the unifier from running through their writes.
  obtain ⟨out, hout⟩ : ∃ out, (cbcResults i s₀)[b].toBytes = out := ⟨_, rfl⟩
  rw [cbcRound_last i hrnd (by rwa [hilen]) hroom' rfl ((congrArg Block.toBytes hresult).trans hout)
    (congrArg (cbcPass i · _) hinput), hinputs, hblk]
  refine ⟨rfl, congrArg (· + 1) hblk, hrk, hilen, ?_, rfl, hremaining, fun k hk => ?_⟩
  · have hlen : out.length = 16 := hout ▸ length_toBytes _
    exact hmem.trans (ObufOnly.writeBytes _ (by omega))
  · have hbyte := read_writeBlock (hmem.wf hwf) hbr hout houtput hk
    rwa [← hblk] at hbyte

/-- An accepted CBC command whose checks pass stands at round 0 of block 0, with CHAIN = IV (R134, R135, R149). -/
theorem cbcAt_accept {s : State} (hc : commandCheck i s = .ok) (w : Word) : CbcAt i s 0 0 (accept i w s) := by
  have haccept : accept i w s = cbcLoad i 0
      { s with busy := true, cmd := w, left := latency i s, seq := ⟨phaseOf i, 0, 0⟩, chain := s.iv } := by
    obtain rfl | rfl := hi <;> exact if_pos hc
  rw [haccept, cbcLoad_eq]
  exact ⟨rfl, rfl, rfl, rfl, .refl _, rfl, rfl, fun k hk => absurd hk (Nat.not_lt_zero k)⟩

/-- A step of the sequencer before the last round of the last block is one round of PHASE CBC (R149). -/
theorem microStep_cbc {s : State} (hd : decode s.cmd = .ok i) (hc : commandCheck i s = .ok)
    (hl : seqAtLast i s = false) : microStep s = cbcRound i s := by
  obtain rfl | rfl := hi <;> simp [microStep, hd, hc, hl, seqRound]

/-- The sequencer has not reached its last round while the position is before it. -/
theorem CbcAt.not_atLast {s₀ s : State} {b r : Nat} (h : CbcAt i s₀ b r s) (hn : 16 * b + r + 1 < 16 * blockCount i s₀)
    (hr : r < 16) : seqAtLast i s = false := by
  have hcount : blockCount i s = blockCount i s₀ := by obtain rfl | rfl := hi <;> simp only [blockCount, h.ilen]
  rw [seqAtLast, h.rnd, h.blk, hcount, Bool.and_eq_false_iff, decide_eq_false_iff_not, decide_eq_false_iff_not]
  omega

/-- One round of a CBC command, from position n to position n + 1 (R149). -/
theorem CbcAt.next {s₀ s : State} {n : Nat} (hwf : s₀.mem.wf) (hc : commandCheck i s₀ = .ok)
    (h : CbcAt i s₀ (n / 16) (n % 16) s) (hn : n < 16 * blockCount i s₀) :
    CbcAt i s₀ ((n + 1) / 16) ((n + 1) % 16) (cbcRound i s) := by
  by_cases hr : n % 16 < 15
  · rw [show (n + 1) / 16 = n / 16 by omega, show (n + 1) % 16 = n % 16 + 1 by omega]
    exact h.round hr
  · rw [show n % 16 = 15 by omega] at h
    rw [show (n + 1) / 16 = n / 16 + 1 by omega, show (n + 1) % 16 = 0 by omega]
    exact h.blockEnd hi hwf hc (by omega)

section
variable {s : State} {w : Word} (hwf : s.mem.wf) (hd : decode w = .ok i) (hc : commandCheck i s = .ok)
include hwf hd hc

/-- The loop, BLK over the blocks and RND over the rounds of each, up to its last round, which comes with the command's end
(R149; log entry 6). -/
theorem cbcAt_advance {n : Nat} (hn : n < 16 * blockCount i s) : CbcAt i s (n / 16) (n % 16) (advance n (accept i w s)) := by
  induction n with
  | zero => exact cbcAt_accept hi hc w
  | succ n ih =>
    have h := ih (by omega)
    obtain ⟨-, -, -, -, haccept, -⟩ := accept_effect i w s
    have hflight := haccept.trans (advance_inFlight n _)
    have hcheck : commandCheck i (advance n (accept i w s)) = .ok :=
      (hflight.commandCheck i).trans (by obtain rfl | rfl := hi <;> exact hc)
    rw [advance_succ, microStep_cbc hi (by rw [hflight.cmd, hd]) hcheck (h.not_atLast hi (by omega) (by omega))]
    exact h.next hi hwf hc (by omega)

/-- PHASE CBC with its last round has gone through all blocks (R149). -/
theorem cbcAt_end : CbcAt i s (blockCount i s) 0 (cbcRound i (advance (16 * blockCount i s - 1) (accept i w s))) := by
  have hpos : 0 < blockCount i s := by
    obtain rfl | rfl := hi
    · exact Nat.succ_pos _
    · obtain ⟨-, -, hne, hmod⟩ := cbcdecCheck_ok.1 hc
      simp only [blockCount]
      omega
  have h := (cbcAt_advance hi hwf hd hc (n := 16 * blockCount i s - 1) (by omega)).next hi hwf hc (by omega)
  rwa [Nat.sub_add_cancel (by omega), Nat.mul_div_cancel_left _ (by decide), Nat.mul_mod_right] at h

end

end

/-- After b blocks IBUF is as it was (R149). -/
theorem CbcAt.ibuf {i : Instr} {s₀ s : State} {b r : Nat} (h : CbcAt i s₀ b r s) (k : Nat) :
    ibufByte s k = ibufByte s₀ k ∨ Config.bufBytes ≤ k :=
  (Nat.lt_or_ge k Config.bufBytes).imp (fun hk => h.mem.read _ (writable_ibuf hk).2) id

/-- Settles O52: after the last round every block's result stands in OBUF, and of the memory OBUF alone has changed. -/
theorem sequencerChainsTheBlocks : Obligations.SequencerChainsTheBlocks := by
  refine fun s w hwf => ⟨fun hd hc => ?_, fun hd hc => ?_⟩
  · have h := cbcAt_end (.inl rfl) hwf hd hc
    exact ⟨h.output, h.ibuf⟩
  · have h := cbcAt_end (.inr rfl) hwf hd hc
    exact ⟨h.output, h.ibuf⟩

end Machine

end Sys2Proof
end

section
/-! PROOFS of the statements about the errors (60_exceptions). First the kind a command ends with, from its checks and
CbcDecrypt; then the kinds each check can report; last what a failure leaves and what a read depends on. -/

namespace Sys2Proof.Machine

open Sys2Proof.Safety

/- The kind a command ends with -/

/-- A command that fails with the kind its checks give, or succeeds where they pass, reports that kind. -/
theorem err_eq_check {r : Host.Outcome State Fault Refusal} {c : ErrorKind} {out : List Byte} {s u t : State}
    (hr : (c ≠ .ok ∧ r = .next (fail c s)) ∨ (c = .ok ∧ r = .next (succeed out u))) (h : r = .next t) : t.err = c := by
  obtain ⟨-, h'⟩ | ⟨hc, h'⟩ := hr <;> (rw [h'] at h; cases h)
  · rfl
  · exact hc.symm

/-- Every command but CBCDEC reports what its checks give (R167). -/
theorem exec_err_of_ne_cbcdec {i : Instr} {s t : State} (hi : i ≠ .cbcdec) (h : exec i s = .next t) :
    t.err = commandCheck i s := by
  cases i with
  | init => exact err_eq_check (execInit_cases s) h
  | encblk => exact err_eq_check (execEncblk_cases s) h
  | decblk => exact err_eq_check (execDecblk_cases s) h
  | cbcenc => exact err_eq_check (execCbcenc_cases s) h
  | cbcdec => exact absurd rfl hi

/-- The check of CBCDEC that comes after the decryption (44_cbc_wrapper R139). -/
def paddingCheck (s : State) : ErrorKind :=
  match cbcDecrypt tables s.rk s.iv (bufferInput s) with
  | .ok _ => .ok
  | .error _ => .invalidPadding

theorem paddingCheck_cases (s : State) : paddingCheck s = .ok ∨ paddingCheck s = .invalidPadding := by
  unfold paddingCheck
  split
  · exact .inl rfl
  · exact .inr rfl

/-- CBCDEC reports what its checks give and, where they pass, what the padding check gives (R167). -/
theorem exec_cbcdec_err {s t : State} (h : exec .cbcdec s = .next t) :
    t.err = if cbcdecCheck s = .ok then paddingCheck s else cbcdecCheck s := by
  obtain ⟨hc, h'⟩ | ⟨hc, ⟨e, he⟩, h'⟩ | ⟨hc, y, hy, h'⟩ := execCbcdec_cases s <;> (rw [exec_cbcdec, h'] at h; cases h)
  · rw [if_neg hc]; rfl
  · rw [if_pos hc, paddingCheck, he]; rfl
  · rw [if_pos hc, paddingCheck, hy]; rfl

/-- Every error kind but InvalidPadding comes from the checks that precede the operands (R167). -/
theorem exec_err_iff {i : Instr} {s t : State} (h : exec i s = .next t) {e : ErrorKind} (hok : e ≠ .ok)
    (hpad : e ≠ .invalidPadding) : t.err = e ↔ commandCheck i s = e := by
  by_cases hi : i = .cbcdec
  · subst hi
    rw [exec_cbcdec_err h, commandCheck]
    split
    · rename_i hc
      obtain hp | hp := paddingCheck_cases s <;> simp [hp, hc, hok.symm, hpad.symm]
    · rfl
  · rw [exec_err_of_ne_cbcdec hi h]

/-- Settles O46: each command reports what its checks give, and the checks are the lists of R167. -/
theorem errorPriority : Obligations.ErrorPriority := by
  refine ⟨fun s w hb hw => ⟨_, (hostWrite_cmd hb w).trans (issue_illegal hw s), rfl⟩, fun s t => ⟨fun h => ?_, fun h => ?_,
    fun h => ?_, fun h => ?_⟩⟩
  · exact exec_err_of_ne_cbcdec (by decide) h
  · have hc : t.err = blockCheck s :=
      h.elim (exec_err_of_ne_cbcdec (i := .encblk) (by decide)) (exec_err_of_ne_cbcdec (i := .decblk) (by decide))
    simpa only [blockCheck, Bool.not_eq_true'] using hc
  · have hc : t.err = cbcencCheck s := exec_err_of_ne_cbcdec (by decide) h
    simpa only [cbcencCheck, Bool.not_eq_true'] using hc
  · split_ifs with hk hl hb
    · exact (exec_err_iff h (by decide) (by decide)).2 (cbcdecCheck_of_unkeyed hk)
    · exact (exec_err_iff h (by decide) (by decide)).2 (cbcdecCheck_of_capacity (by simpa using hk) hl)
    · exact (exec_err_iff h (by decide) (by decide)).2 (cbcdecCheck_of_length (by simpa using hk) (not_lt.1 hl) hb)
    · have hc : cbcdecCheck s = .ok := cbcdecCheck_ok.2 ⟨by simpa using hk, by omega⟩
      rw [exec_cbcdec_err h, if_pos hc]
      rfl

/- The kinds each check reports -/

theorem initCheck_kinds (s : State) :
    (initCheck s = .invalidState ↔ s.keyed = true) ∧ initCheck s ≠ .invalidBlockSize ∧ initCheck s ≠ .bufferCapacity := by
  unfold initCheck
  split_ifs <;> simp_all

theorem blockCheck_kinds (s : State) :
    (blockCheck s = .invalidState ↔ s.keyed = false) ∧ (blockCheck s = .invalidBlockSize ↔ s.keyed = true ∧ s.ilen ≠ 16) ∧
      blockCheck s ≠ .bufferCapacity := by
  unfold blockCheck
  split_ifs <;> simp_all

theorem cbcencCheck_kinds (s : State) :
    (cbcencCheck s = .invalidState ↔ s.keyed = false) ∧ cbcencCheck s ≠ .invalidBlockSize ∧
      (cbcencCheck s = .bufferCapacity ↔ s.keyed = true ∧ Config.bufBytes - 1 < s.ilen.toNat) := by
  unfold cbcencCheck
  split_ifs <;> simp_all

theorem cbcdecCheck_kinds (s : State) :
    (cbcdecCheck s = .invalidState ↔ s.keyed = false) ∧ cbcdecCheck s ≠ .invalidBlockSize ∧
      (cbcdecCheck s = .bufferCapacity ↔ s.keyed = true ∧ Config.bufBytes < s.ilen.toNat) := by
  unfold cbcdecCheck
  split_ifs <;> simp_all

/-- Settles O45: the three kinds come from the checks, and each command's checks report them as R160, R162 and R163 say. -/
theorem errorKindsExactly : Obligations.ErrorKindsExactly := by
  intro i s t h
  rw [exec_err_iff h (by decide) (by decide), exec_err_iff h (by decide) (by decide),
    exec_err_iff h (by decide) (by decide)]
  cases i with
  | init => simp [commandCheck, initCheck_kinds s]
  | encblk => simp [commandCheck, blockCheck_kinds s]
  | decblk => simp [commandCheck, blockCheck_kinds s]
  | cbcenc => simp [commandCheck, cbcencCheck_kinds s]
  | cbcdec => simp [commandCheck, cbcdecCheck_kinds s]

/- What a failure leaves -/

/-- A failed command has no output (R157). -/
theorem exec_output_of_error {i : Instr} {s t : State} (h : exec i s = .next t) (ht : t.err ≠ .ok) : OutputIs t [] := by
  obtain ⟨e, out, u, rfl, hl, hout, -⟩ := exec_eq_complete h
  obtain rfl := hout ht
  exact complete_output e hl u

/-- A failed command leaves KEY, IV, RK and KEYED alone: INIT latches them only when its checks pass (R171). -/
theorem exec_instance_of_error {i : Instr} {s t : State} (h : exec i s = .next t) (ht : t.err ≠ .ok) :
    InstanceUnchanged s t := by
  obtain hs | ⟨-, -, rfl⟩ := exec_instance h
  · exact hs
  · exact absurd rfl ht

/-- Settles O44, from the frame of all commands and from what an error kind adds to it. -/
theorem failuresHaveTheCommonEffect : Obligations.FailuresHaveTheCommonEffect := by
  intro i s t h ht
  obtain ⟨hstaging, hhost, -⟩ := exec_frame h
  exact ⟨rfl, exec_output_of_error h ht, exec_idle h, hstaging, exec_instance_of_error h ht, hhost⟩

/- What a read depends on -/

/-- Settles O13: STATUS and every other location are functions of the fields the two states share. -/
theorem hiddenStateHasNoReadPath : Obligations.HiddenStateHasNoReadPath := by
  intro s t hmem hklen hivlen hilen holen hrk hbusy hkeyed herr a
  have hstatus : statusWord s = statusWord t := by simp only [statusWord, hbusy, hkeyed, herr]
  have hidle : idleRead s a = idleRead t a := by
    simp only [idleRead, hstatus, hmem, hklen, hivlen, hilen, holen, hrk]
  simp only [hostRead, hbusy, hstatus, hidle]

end Sys2Proof.Machine
end

section
/-! PROOFS of the statements about reset, the port's hazards and time (70_reset_and_hazards), within one level. First that
every action and every step is answered; then what a host write leaves alone and what RESET leaves; last the busy window and the
bound of LAT. -/

namespace Sys2Proof.Machine

open Sys2Proof.Safety

/- Every step is answered -/

theorem issue_next (w : Word) (s : State) : ∃ t, issue w s = .next t := by
  obtain h | ⟨i, -, -, h⟩ | ⟨i, -, -, h⟩ := issue_cases w s
  · exact ⟨_, h⟩
  · exact h ▸ exec_next i s
  · exact ⟨_, h⟩

theorem hostWrite_next (s : State) (a v : Word) : ∃ t, hostWrite s a v = .next t := by
  obtain h | ⟨-, -, h⟩ | ⟨-, _, _, _, h⟩ | ⟨-, _, -, -, h⟩ := hostWrite_cases s a v
  · exact ⟨_, h⟩
  · exact h ▸ issue_next v s
  · exact ⟨_, h⟩
  · exact ⟨_, h⟩

/-- Every host action in every state is answered (70_reset R196). -/
theorem act_next (x : HostAction) (s : State) : ∃ t, act x s = .next t := by
  cases x with
  | wr a v => exact hostWrite_next s a v
  | reset | rd a | wait => exact ⟨_, rfl⟩

/-- The last time unit of a busy core whose latched word is no command (log entry 17). -/
theorem coreTurn_illegal {s : State} {e : DecodeError} (hl : s.left ≤ 1) (hd : decode s.cmd = .error e) :
    coreTurn s = .next (fail .invalidCommand s) := by
  simp [coreTurn, endCommand, hl, hd]

/-- A time unit that is not the last is the sequencer's alone (10_state R33, 70_reset R190). -/
theorem coreTurn_early {s : State} (hl : 1 < s.left) :
    coreTurn s = .next (advance (Config.pace s) { s with left := s.left - 1 }) :=
  if_neg (Nat.not_le.2 hl)

theorem coreTurn_next (s : State) : ∃ t, coreTurn s = .next t := by
  by_cases hl : s.left ≤ 1
  · cases hd : decode s.cmd with
    | ok i => exact coreTurn_last hl hd ▸ exec_next i s
    | error e => exact ⟨_, coreTurn_illegal hl hd⟩
  · exact ⟨_, coreTurn_early (Nat.lt_of_not_le hl)⟩

/-- The step of a core that is not busy is the host's next action (20_memory R54). -/
theorem step_act {s : State} (hb : s.busy = false) {x : HostAction} {rest : List HostAction} (hs : s.script = x :: rest) :
    step s = act x { s with script := rest } := by
  simp [step, idleUnit, hb, hs]

/-- A core that is not busy and has no action pending stays as it is (70_reset R194). -/
theorem step_nil {s : State} (hb : s.busy = false) (hs : s.script = []) : step s = .next s := by
  simp [step, idleUnit, hb, hs]

/-- The step of a busy core: the host's part, then the core's, unless the host's was a RESET (R181, R184). -/
theorem step_busy {s t : State} (hb : s.busy = true) (h : hostTurn s = .next t) :
    step s = if t.busy then coreTurn t else .next t := by
  simp [step, busyUnit, hb, h]

theorem step_next (s : State) : ∃ t, step s = .next t := by
  cases hb : s.busy
  · cases hs : s.script with
    | nil => exact ⟨_, step_nil hb hs⟩
    | cons x rest => exact step_act hb hs ▸ act_next x _
  · obtain ⟨t, ht⟩ := hostTurn_next hb
    rw [step_busy hb ht]
    split
    · exact coreTurn_next t
    · exact ⟨_, rfl⟩

/-- Settles O7: each part of a step is answered, and so is every command. -/
theorem everyStepAnswersNext : Obligations.EveryStepAnswersNext := ⟨step_next, exec_next⟩

/- A host write that is no command -/

/-- Settles O14, by the cases of a host write: the ones that are left write a length register or a byte outside OBUF. -/
theorem hostWritesLeaveInstanceAndResult : Obligations.HostWritesLeaveInstanceAndResult := by
  intro s t a v h hl
  suffices hstaged : ∃ k i n m, t = { s with klen := k, ivlen := i, ilen := n, mem := m } ∧
      ∀ j, j < Config.bufBytes → m.read (obufBase + j) = s.mem.read (obufBase + j) by
    obtain ⟨k, i, n, m, rfl, hm⟩ := hstaged
    exact ⟨⟨rfl, rfl, rfl, rfl⟩, ⟨rfl, rfl, hm⟩, ⟨rfl, rfl, rfl, rfl⟩, ⟨rfl, rfl, rfl, rfl⟩, rfl,
      ⟨rfl, rfl, rfl⟩⟩
  obtain hw | ⟨-, hcmd, -⟩ | ⟨-, k, i, n, hw⟩ | ⟨-, n, hn, -, hw⟩ := hostWrite_cases s a v
  · cases hw.symm.trans h
    exact ⟨_, _, _, _, rfl, fun _ _ => rfl⟩
  · exact absurd hcmd hl
  · cases hw.symm.trans h
    exact ⟨_, _, _, _, rfl, fun _ _ => rfl⟩
  · cases hw.symm.trans h
    exact ⟨_, _, _, _, rfl, fun _ hj => read_write_writable s.mem _ hn hj⟩

/- Reset -/

/-- Every location reads zero after RESET (70_reset R180). -/
theorem hostRead_resetEvent (s : State) (a : Word) : hostRead (resetEvent s) a = 0 := by
  rw [hostRead_idle rfl, idleRead]
  cases locate a with
  | status => exact (by decide : statusWord State.reset = 0)
  | rk i => exact rkAt_replicate_zero i
  | _ => rfl

/-- Settles O15: `resetEvent` is the reset state but for the host's own fields, and that state reads zero everywhere. -/
theorem resetZeroesEverything : Obligations.ResetZeroesEverything := fun s =>
  ⟨resetEvent s, rfl, hostRead_resetEvent s, fun _ => rfl, rfl, rfl, rfl, rfl, rfl, rfl, rkAt_replicate_zero,
    rfl, rfl, rfl, rfl, rfl, rfl, rfl, rfl, rfl, rfl, rfl, rfl, rfl⟩

/-- Settles O16: memory is empty, the sequencer idle, KEYED clear and OLEN zero. -/
theorem resetStateIsGood : Obligations.ResetStateIsGood :=
  ⟨⟨reset_mem_wf, by simp [State.reset]⟩, sequencerInv_of_idle ⟨rfl, rfl, rfl, rfl⟩,
    ⟨fun hk => by simp [State.reset] at hk, fun _ => ⟨rfl, rfl, .inl rfl⟩⟩,
    fun _ => ⟨Nat.zero_le _, fun _ _ _ => rfl, fun he => absurd rfl he⟩⟩

/- The busy window -/

/-- The sequencer shows the host of a busy core nothing (70_reset R184 d). -/
theorem InFlight.sameView {s t : State} (h : InFlight s t) (hb : s.busy = true) : SameView s t := fun a => by
  have hstatus : statusWord s = statusWord t := by simp only [statusWord, h.busy, h.keyed, h.err]
  rw [hostRead_busy hb, hostRead_busy (h.busy.trans hb), hstatus]

/-- The last time unit ends the busy window (R184 e). -/
theorem coreTurn_last_idle {s t : State} (hl : s.left ≤ 1) (h : coreTurn s = .next t) : t.busy = false := by
  cases hd : decode s.cmd with
  | ok i => exact (exec_idle ((coreTurn_last hl hd).symm.trans h)).1
  | error e =>
    cases (coreTurn_illegal hl hd).symm.trans h
    rfl

/-- Settles O48: reads of a busy core show STATUS alone, which the sequencer leaves as it is, and the last unit is `exec`. -/
theorem busyWindow : Obligations.BusyWindow := by
  intro s hb
  refine ⟨?_, fun a ha => ?_, fun a v => if_pos hb, fun n a => ?_, fun t h => ⟨fun hl => ?_, fun hl => ?_⟩⟩
  · rw [hostRead_status, toNat_statusWord, hb, if_pos rfl]
  · rw [hostRead_busy hb, if_neg ha]
  · have hf := advance_inFlight n s
    exact ⟨(hf.sameView hb a).symm, hf.busy.trans hb⟩
  · cases (coreTurn_early hl).symm.trans h
    have hf := advance_inFlight (Config.pace s) { s with left := s.left - 1 }
    exact ⟨hf.busy.trans hb, hf.sameView hb⟩
  · exact ⟨coreTurn_last_idle hl h, fun i hd => (coreTurn_last hl hd).symm.trans h⟩

/- The bound of LAT -/

/-- Settles O49: LAT is 1 plus a value reduced below one more than the bound of R190. -/
theorem latencyIsBounded : Obligations.LatencyIsBounded := by
  refine ⟨Config.latBase + 1, Config.latPerBlock, fun i s => ⟨latency_pos i s, ?_, ?_⟩⟩
  · have hmod : Config.lat i s % (Config.latBase + 1) ≤ Config.latBase := Nat.le_of_lt_succ (Nat.mod_lt _ (Nat.succ_pos _))
    rintro (rfl | rfl | rfl) <;> (simp only [latency]; omega)
  · have hmod (n : Nat) : Config.lat i s % (Config.latBase + Config.latPerBlock * n + 1) ≤
        Config.latBase + Config.latPerBlock * n := Nat.le_of_lt_succ (Nat.mod_lt _ (Nat.succ_pos _))
    have hcbc := hmod (s.ilen.toNat / 16 + 1)
    rintro (rfl | rfl) <;> (simp only [latency]; omega)

end Sys2Proof.Machine
end

section
/-! PROOFS of the two statements that tie the levels of the spec to each other (70_reset_and_hazards R185, R186). First: what the
sequencer does to a command in progress does not change how the command ends. Then the invariant of a busy core, that its
command, executed now, ends as the command-atomic level ended it. Last, induction on the time left and on the script. -/

namespace Sys2Proof.Machine

open Sys2Proof.Safety

/- What the end of a command depends on -/

/-- `t` with the fields about the host of `x`. -/
def State.withHost (t x : State) : State := { t with grain := x.grain, script := x.script, rdata := x.rdata }

/-- Two states that differ at most in what the end of a command writes (OBUF, OLEN, STATUS, the command in progress) and in the
host's own fields. -/
structure SameCore (s s' : State) : Prop where
  clear : s'.mem.clearObuf = s.mem.clearObuf
  staging : StagingUnchanged s s'
  inst : InstanceUnchanged s s'
  words : KeyWordsUnchanged s s'
  halves : HalvesUnchanged s s'
  chain : s'.chain = s.chain

/-- Two such states end alike. -/
theorem SameCore.complete {s s' : State} (h : SameCore s s') (e : ErrorKind) (out : List Byte) :
    complete e out s' = (complete e out s).withHost s' := by
  obtain ⟨hclear, ⟨hklen, hivlen, hilen, -⟩, ⟨hkey, hiv, hrk, hkeyed⟩, ⟨ha, hb, hc, hd⟩, ⟨hl0, hl1, hr0, hr1⟩,
    hchain⟩ := h
  simp only [Machine.complete, State.withHost, Memory.setObuf_congr hclear, hklen, hivlen, hilen, hkey, hiv, hrk, hkeyed, ha, hb,
    hc, hd, hl0, hl1, hr0, hr1, hchain]

/-- Two states in which the command `i` ends alike: they differ at most as `SameCore` says and in what `i` overwrites once its
checks have passed, which is RK and the working words for INIT, the halves for the others, CHAIN for the CBC commands. -/
structure SameEnd (i : Instr) (s s' : State) : Prop where
  clear : s'.mem.clearObuf = s.mem.clearObuf
  staging : StagingUnchanged s s'
  key : s'.key = s.key
  iv : s'.iv = s.iv
  keyed : s'.keyed = s.keyed
  rk : (commandCheck i s = .ok → i ≠ .init) → s'.rk = s.rk
  words : (commandCheck i s = .ok → i ≠ .init) → KeyWordsUnchanged s s'
  halves : (commandCheck i s = .ok → i = .init) → HalvesUnchanged s s'
  chain : (commandCheck i s = .ok → i ≠ .cbcenc ∧ i ≠ .cbcdec) → s'.chain = s.chain

section
variable {i : Instr} {s s' s'' : State}

/-- No command's end depends on the command in progress or on the host's own fields. -/
theorem SameEnd.control (i : Instr) (s : State) {b : Bool} {q : Seq} {w : Word} {l : Nat} {g : Grain} {r : List HostAction}
    {v : Word} : SameEnd i s { s with busy := b, seq := q, cmd := w, left := l, grain := g, script := r, rdata := v } :=
  ⟨rfl, ⟨rfl, rfl, rfl, fun _ _ => rfl⟩, rfl, rfl, rfl, fun _ => rfl, fun _ => ⟨rfl, rfl, rfl, rfl⟩,
    fun _ => ⟨rfl, rfl, rfl, rfl⟩, fun _ => rfl⟩

theorem SameEnd.refl (i : Instr) (s : State) : SameEnd i s s := SameEnd.control i s

theorem SameEnd.commandCheck (h : SameEnd i s s') : commandCheck i s' = commandCheck i s := by
  obtain ⟨hklen, hivlen, hilen, -⟩ := h.staging
  cases i <;>
    simp only [Machine.commandCheck, initCheck, blockCheck, cbcencCheck, cbcdecCheck, h.keyed, hklen, hivlen, hilen]

theorem SameEnd.trans (h : SameEnd i s s') (h' : SameEnd i s' s'') : SameEnd i s s'' := by
  obtain ⟨hklen, hivlen, hilen, hread⟩ := h.staging
  obtain ⟨hklen', hivlen', hilen', hread'⟩ := h'.staging
  have hc := h.commandCheck
  refine ⟨h'.clear.trans h.clear, ⟨hklen'.trans hklen, hivlen'.trans hivlen, hilen'.trans hilen,
      fun n hn => (hread' n hn).trans (hread n hn)⟩, h'.key.trans h.key, h'.iv.trans h.iv, h'.keyed.trans h.keyed,
    fun hp => (h'.rk (hc ▸ hp)).trans (h.rk hp), fun hp => ?_, fun hp => ?_,
    fun hp => (h'.chain (hc ▸ hp)).trans (h.chain hp)⟩
  · obtain ⟨ha, hb, hc', hd⟩ := h.words hp
    obtain ⟨ha', hb', hc'', hd'⟩ := h'.words (hc ▸ hp)
    exact ⟨ha'.trans ha, hb'.trans hb, hc''.trans hc', hd'.trans hd⟩
  · obtain ⟨ha, hb, hc', hd⟩ := h.halves hp
    obtain ⟨ha', hb', hc'', hd'⟩ := h'.halves (hc ▸ hp)
    exact ⟨ha'.trans ha, hb'.trans hb, hc''.trans hc', hd'.trans hd⟩

/-- A command whose checks fail touches nothing before its end. -/
theorem SameEnd.sameCore (h : SameEnd i s s') (hc : Machine.commandCheck i s ≠ .ok) : SameCore s s' :=
  ⟨h.clear, h.staging, ⟨h.key, h.iv, h.rk fun hc' => absurd hc' hc, h.keyed⟩, h.words fun hc' => absurd hc' hc,
    h.halves fun hc' => absurd hc' hc, h.chain fun hc' => absurd hc' hc⟩

end

/-- The operands in IBUF, where every byte outside OBUF is unchanged. -/
theorem blockInput_staging {s s' : State} (h : StagingUnchanged s s') : blockInput s' = blockInput s := by
  obtain ⟨-, -, -, hmem⟩ := h
  exact congrArg Block.ofBytes (readBytes_congr fun i hi => hmem _ (writable_ibuf (by rw [map_values.2.2.2.2.2]; omega)).2)

theorem bufferInput_staging {s s' : State} (h : StagingUnchanged s s') (hl : s.ilen.toNat ≤ Config.bufBytes) :
    bufferInput s' = bufferInput s := by
  obtain ⟨-, -, hilen, hmem⟩ := h
  rw [bufferInput, bufferInput, hilen]
  exact readBytes_congr fun i hi => hmem _ (writable_ibuf (by omega)).2

/-- A command whose checks fail is `fail` with what they give (60_exceptions R167). -/
theorem exec_of_failed {i : Instr} {s : State} (h : commandCheck i s ≠ .ok) : exec i s = .next (fail (commandCheck i s) s) := by
  cases i with
  | init => exact exec_init_of_failed h
  | encblk => exact (execEncblk_cases s).elim And.right fun hc => absurd hc.1 h
  | decblk => exact (execDecblk_cases s).elim And.right fun hc => absurd hc.1 h
  | cbcenc => exact (execCbcenc_cases s).elim And.right fun hc => absurd hc.1 h
  | cbcdec => exact (execCbcdec_cases s).elim And.right (Or.elim · (fun hc => absurd hc.1 h) fun hc => absurd hc.1 h)

section
variable {i : Instr} {s s' t : State}

/-- INIT overwrites what its sequencer writes: RK and the working words (42_key_schedule R106). -/
theorem SameEnd.latchInstance (h : SameEnd .init s s') : SameCore (latchInstance s) (latchInstance s') := by
  obtain ⟨hk, hi⟩ := stagedInputs_eq h.staging
  refine ⟨h.clear, h.staging, ⟨hk, hi, ?_, rfl⟩, ?_, h.halves fun _ => rfl, h.chain (by simp)⟩
  · simp only [latchInstance_rk, hk]
  · simp only [KeyWordsUnchanged, latchInstance_a, latchInstance_b, latchInstance_c, latchInstance_d, hk, and_self]

/-- The other commands overwrite the halves, and CHAIN unless it is as it was (43_block_core R115, 44_cbc_wrapper R133). -/
theorem SameEnd.setHalves (h : SameEnd i s s') (hi : i ≠ .init) (x : Halves) {c c' : Block} (hc : c' = c) :
    SameCore { s.setHalves x with chain := c } { s'.setHalves x with chain := c' } :=
  ⟨h.clear, h.staging, ⟨h.key, h.iv, h.rk fun _ => hi, h.keyed⟩, h.words fun _ => hi, ⟨rfl, rfl, rfl, rfl⟩, hc⟩

/-- A block command whose result block is the same in both states ends alike. -/
theorem SameEnd.exec_block {y : Block} (h : SameEnd i s s') (hi : i = .encblk ∨ i = .decblk) (hs : EndsAsBlock i y s)
    (hs' : EndsAsBlock i y s') (hc : blockCheck s = .ok) (hc' : blockCheck s' = .ok) (ht : exec i s = .next t) :
    exec i s' = .next (t.withHost s') := by
  obtain ⟨-, hs⟩ := hs.resolve_left fun hf => hf.1 hc
  obtain ⟨-, hs'⟩ := hs'.resolve_left fun hf => hf.1 hc'
  cases hs.symm.trans ht
  have hchain : s'.chain = s.chain := h.chain fun _ => by obtain rfl | rfl := hi <;> decide
  have hinit : i ≠ .init := by obtain rfl | rfl := hi <;> decide
  exact hs'.trans (congrArg _ ((h.setHalves hinit (Halves.load y) hchain).complete _ _))

/-- The kind and the result a CBCDEC ends with whose checks have passed (44_cbc_wrapper R139). -/
def unpadEnd : Except ErrorKind (List Byte) → ErrorKind × List Byte
  | .ok y => (.ok, y)
  | .error _ => (.invalidPadding, [])

theorem exec_cbcdec_of_check (hc : cbcdecCheck s = .ok) :
    let r := unpadEnd (cbcDecrypt tables s.rk s.iv (bufferInput s))
    exec .cbcdec s = .next (complete r.1 r.2 (afterCbcDecrypt (bufferInput s) s)) := by
  obtain ⟨hf, -⟩ | ⟨-, ⟨e, he⟩, h⟩ | ⟨-, y, hy, h⟩ := execCbcdec_cases s
  · exact absurd hc hf
  · rw [he]; exact h
  · rw [hy]; exact h

theorem exec_cbcenc_of_check (hc : cbcencCheck s = .ok) :
    let y := cbcEncrypt tables s.rk s.iv (bufferInput s)
    exec .cbcenc s = .next (complete .ok y (afterCbcEncrypt y s)) := by
  obtain ⟨hf, -⟩ | ⟨-, h⟩ := execCbcenc_cases s
  · exact absurd hc hf
  · exact h

/-- A command ends alike in two states that differ at most in what it overwrites. -/
theorem SameEnd.exec (h : SameEnd i s s') (ht : exec i s = .next t) : exec i s' = .next (t.withHost s') := by
  by_cases hc : Machine.commandCheck i s = .ok
  · have hc' := h.commandCheck.trans hc
    cases i with
    | init =>
      cases (exec_init_of_check hc).symm.trans ht
      exact (exec_init_of_check hc').trans (congrArg _ (h.latchInstance.complete _ _))
    | encblk =>
      refine h.exec_block (.inl rfl) (encblk_endsAsBlock s) ?_ hc hc' ht
      rw [← h.rk fun _ => by decide, ← blockInput_staging h.staging]
      exact encblk_endsAsBlock s'
    | decblk =>
      refine h.exec_block (.inr rfl) (decblk_endsAsBlock s) ?_ hc hc' ht
      rw [← h.rk fun _ => by decide, ← blockInput_staging h.staging]
      exact decblk_endsAsBlock s'
    | cbcenc =>
      have hin := bufferInput_staging h.staging (by have := (cbcencCheck_ok.1 hc).2; omega)
      cases (exec_cbcenc_of_check hc).symm.trans ht
      rw [exec_cbcenc_of_check hc', hin, h.rk fun _ => by decide, h.iv]
      exact congrArg _ ((h.setHalves (by decide) _ rfl).complete _ _)
    | cbcdec =>
      have hin := bufferInput_staging h.staging (cbcdecCheck_ok.1 hc).2.1
      cases (exec_cbcdec_of_check hc).symm.trans ht
      have hrk : s'.rk = s.rk := h.rk fun _ => by decide
      rw [exec_cbcdec_of_check hc', hin, hrk, h.iv, afterCbcDecrypt, hrk]
      exact congrArg _ ((h.setHalves (by decide) _ rfl).complete _ _)
  · cases (exec_of_failed hc).symm.trans ht
    rw [exec_of_failed (h.commandCheck.symm ▸ hc), h.commandCheck]
    exact congrArg _ ((h.sameCore hc).complete _ _)

end

/- The sequencer -/

/-- What the sequencer does in `i`, once its checks have passed, leaves the words that `i` does not overwrite. -/
structure WordsKept (i : Instr) (s s' : State) : Prop where
  words : i ≠ .init → KeyWordsUnchanged s s'
  halves : i = .init → HalvesUnchanged s s'
  chain : i ≠ .cbcenc → i ≠ .cbcdec → s'.chain = s.chain

theorem InFlight.sameEnd {i : Instr} {s s' : State} (h : InFlight s s') (hk : WordsKept i s s') (hd : decode s.cmd = .ok i)
    (hc : Machine.commandCheck i s = .ok) : SameEnd i s s' where
  clear := h.mem.clear
  staging := ⟨h.klen, h.ivlen, h.ilen, h.mem.read⟩
  key := h.key
  iv := h.iv
  keyed := h.keyed
  rk hi := h.rk.resolve_right fun hinit => hi hc (by simpa [hd] using hinit.1)
  words hi := hk.words (hi hc)
  halves hi := hk.halves (hi hc)
  chain hi := hk.chain (hi hc).1 (hi hc).2

theorem seqLoad_wordsKept (i : Instr) (s : State) : WordsKept i s (seqLoad i s) := by
  cases i with
  | init => exact ⟨fun hi => absurd rfl hi, fun _ => ⟨rfl, rfl, rfl, rfl⟩, fun _ _ => rfl⟩
  | encblk | decblk => exact ⟨fun _ => ⟨rfl, rfl, rfl, rfl⟩, nofun, fun _ _ => rfl⟩
  | cbcenc => exact ⟨fun _ => ⟨rfl, rfl, rfl, rfl⟩, nofun, fun hi => absurd rfl hi⟩
  | cbcdec => exact ⟨fun _ => ⟨rfl, rfl, rfl, rfl⟩, nofun, fun _ hi => absurd rfl hi⟩

theorem cbcRound_words (i : Instr) (s : State) : KeyWordsUnchanged s (cbcRound i s) := by
  unfold cbcRound
  split
  · exact ⟨rfl, rfl, rfl, rfl⟩
  · rw [cbcBlockEnd_eq, cbcLoad_eq]
    simp [KeyWordsUnchanged, blockStored]

theorem seqRound_wordsKept (i : Instr) (s : State) : WordsKept i s (seqRound i s) := by
  cases i with
  | init => exact ⟨fun hi => absurd rfl hi, fun _ => ⟨rfl, rfl, rfl, rfl⟩, fun _ _ => rfl⟩
  | encblk | decblk => exact ⟨fun _ => ⟨rfl, rfl, rfl, rfl⟩, nofun, fun _ _ => rfl⟩
  | cbcenc => exact ⟨fun _ => cbcRound_words _ s, nofun, fun hi => absurd rfl hi⟩
  | cbcdec => exact ⟨fun _ => cbcRound_words _ s, nofun, fun _ hi => absurd rfl hi⟩

/-- A step of the sequencer does not change how the command in progress ends. -/
theorem microStep_sameEnd {i : Instr} {s : State} (hd : decode s.cmd = .ok i) : SameEnd i s (microStep s) := by
  unfold microStep
  simp only [hd]
  split
  · rename_i h
    simp only [Bool.and_eq_true, decide_eq_true_eq, Bool.not_eq_true'] at h
    exact (seqRound_inFlight hd h.1 h.2).sameEnd (seqRound_wordsKept i s) hd h.1
  · exact .refl i s

theorem advance_sameEnd {i : Instr} {s : State} (hd : decode s.cmd = .ok i) (n : Nat) : SameEnd i s (advance n s) := by
  induction n generalizing s with
  | zero => exact .refl i s
  | succ n ih => exact (microStep_sameEnd hd).trans (ih ((microStep_inFlight s).cmd ▸ hd))

/-- Acceptance does not change how the command ends. -/
theorem accept_sameEnd {i : Instr} {w : Word} (hd : decode w = .ok i) (s : State) : SameEnd i s (accept i w s) := by
  obtain ⟨-, -, -, -, hf, -⟩ := accept_effect i w s
  have hlatched : SameEnd i s { s with busy := true, cmd := w, left := latency i s, seq := ⟨phaseOf i, 0, 0⟩ } :=
    SameEnd.control i s
  by_cases hc : Machine.commandCheck i s = .ok
  · rw [accept, if_pos hc] at hf ⊢
    exact hlatched.trans (hf.sameEnd (seqLoad_wordsKept i _) hd (hlatched.commandCheck.trans hc))
  · rw [accept, if_neg hc]
    exact hlatched

/- Runs -/

/-- Some number of steps takes `s` to `t`. -/
def Reaches (s t : State) : Prop := ∃ n, core.run n s = .next t

theorem Reaches.refl (s : State) : Reaches s s := ⟨0, rfl⟩

theorem run_succ {M : Host.Core} {s s' : M.State} (h : M.step s = .next s') (n : Nat) : M.run (n + 1) s = M.run n s' := by
  rw [Host.Core.run, h]

theorem Reaches.head {s s' t : State} (h : step s = .next s') (h' : Reaches s' t) : Reaches s t := by
  obtain ⟨n, hn⟩ := h'
  exact ⟨n + 1, (run_succ (M := core) h n).trans hn⟩

theorem Reaches.trans {s t u : State} (h : Reaches s t) (h' : Reaches t u) : Reaches s u := by
  obtain ⟨n, hn⟩ := h
  induction n generalizing s with
  | zero => cases hn; exact h'
  | succ n ih =>
    obtain ⟨s', hs⟩ := step_next s
    exact .head hs (ih ((run_succ (M := core) hs n).symm.trans hn))

/- A command in progress -/

/-- The invariant of a busy core at the finer level: the command in progress, executed now, ends as `y`, but for the host's own
fields. -/
structure Running (i : Instr) (y x : State) : Prop where
  busy : x.busy = true
  cmd : decode x.cmd = .ok i
  grain : x.grain = .timed
  ends : exec i x = .next (y.withHost x)

/-- A command accepted at the finer level runs towards the end it has at the command-atomic one. -/
theorem running_accept {i : Instr} {w : Word} {s y : State} (hd : decode w = .ok i) (hg : s.grain = .timed)
    (h : exec i s = .next (y.withHost s)) : Running i y (accept i w s) := by
  obtain ⟨hb, hcmd, -, -, hf, -⟩ := accept_effect i w s
  exact ⟨hb, hcmd.symm ▸ hd, hf.grain.trans hg, (accept_sameEnd hd s).exec (t := y.withHost s) h⟩

/-- A change of what the command's end does not depend on, or writes again, keeps it running. -/
theorem Running.of_sameEnd {i : Instr} {y x x' : State} (h : Running i y x) (he : SameEnd i x x') (hb : x'.busy = true)
    (hcmd : x'.cmd = x.cmd) (hg : x'.grain = .timed) : Running i y x' :=
  ⟨hb, hcmd.symm ▸ h.cmd, hg, he.exec (t := y.withHost x) h.ends⟩

/-- The core's part of a time unit: the command ends, or it runs on with less time left. -/
theorem Running.coreTurn {i : Instr} {y x : State} (h : Running i y x) :
    coreTurn x = .next (y.withHost x) ∨
      ∃ x', coreTurn x = .next x' ∧ Running i y x' ∧ x'.left < x.left ∧ x'.script = x.script := by
  by_cases hl : x.left ≤ 1
  · exact .inl ((coreTurn_last hl h.cmd).trans h.ends)
  · have hf := advance_inFlight (Config.pace x) { x with left := x.left - 1 }
    have he : SameEnd i x (advance (Config.pace x) { x with left := x.left - 1 }) :=
      (SameEnd.control i x).trans (advance_sameEnd (s := { x with left := x.left - 1 }) h.cmd _)
    have hleft : x.left - 1 < x.left := by omega
    exact .inr ⟨_, coreTurn_early (Nat.lt_of_not_le hl), h.of_sameEnd he (hf.busy.trans h.busy) hf.cmd (hf.grain.trans h.grain),
      hf.left.trans_lt hleft, hf.script⟩

/-- What is left of a script after a time unit of a busy core without a RESET: all of it, or all but an `RD STATUS`. -/
def Consumed (script r : List HostAction) : Prop := r = script ∨ ∃ a, locate a = .status ∧ script = .rd a :: r

/-- The host's part of a time unit of a busy core whose host may act only as R70 allows: a RESET, or a read of STATUS. -/
theorem hostTurn_allowed {x : State} (hb : x.busy = true) (ha : ∀ z rest, x.script = z :: rest → allowedWhileBusy z = true) :
    (∃ r, x.script = .reset :: r ∧ hostTurn x = .next { State.reset with script := r, grain := x.grain }) ∨
      ∃ r v, Consumed x.script r ∧ hostTurn x = .next { x with script := r, rdata := v } := by
  unfold hostTurn
  split
  · exact .inr ⟨x.script, x.rdata, .inl rfl, rfl⟩
  · rename_i z rest hs
    have hz := ha z rest hs
    split
    · cases z with
      | reset => exact .inl ⟨rest, hs, rfl⟩
      | rd a => exact .inr ⟨rest, _, .inr ⟨a, by simpa [allowedWhileBusy] using hz, hs⟩, rfl⟩
      | wait =>
        refine .inr ⟨.wait :: rest, statusWord { x with script := rest }, .inl hs.symm, ?_⟩
        rw [act, waitOnce_eq, if_pos hb]
      | wr a v => simp [allowedWhileBusy] at hz
    · exact .inr ⟨x.script, x.rdata, .inl rfl, rfl⟩

/-- Everything a step can do to a command in progress that ends as `y`. -/
inductive Turn (i : Instr) (y x x' : State) : Prop where
  /-- RESET abandons it. -/
  | reset (r : List HostAction) (hs : x.script = .reset :: r) (h : x' = { State.reset with script := r, grain := .timed })
  /-- It ends. -/
  | ended (r : List HostAction) (v : Word) (hr : Consumed x.script r)
      (h : x' = { y with grain := .timed, script := r, rdata := v })
  /-- It runs on, with less time left. -/
  | running (hr : Consumed x.script x'.script) (h : Running i y x') (hl : x'.left < x.left)

theorem Running.step {i : Instr} {y x : State} (h : Running i y x)
    (ha : ∀ z rest, x.script = z :: rest → allowedWhileBusy z = true) : ∃ x', step x = .next x' ∧ Turn i y x x' := by
  obtain ⟨r, hs, ht⟩ | ⟨r, v, hr, ht⟩ := hostTurn_allowed h.busy ha
  · exact ⟨_, step_busy h.busy ht, .reset r hs (by rw [h.grain])⟩
  · have hx : Running i y { x with script := r, rdata := v } := h.of_sameEnd (SameEnd.control i x) h.busy rfl h.grain
    have hstep : Machine.step x = Machine.coreTurn { x with script := r, rdata := v } :=
      (step_busy h.busy ht).trans (if_pos h.busy)
    obtain hend | ⟨x', hcore, hx', hl, hscript⟩ := hx.coreTurn
    · exact ⟨_, hstep.trans hend, .ended r v hr (by rw [State.withHost, h.grain])⟩
    · exact ⟨x', hstep.trans hcore, .running (hscript ▸ hr) hx' hl⟩

/- A command followed by WAIT -/

/-- A pending WAIT is still pending after a time unit of a busy core (30_encoding R69). -/
theorem Consumed.of_wait {rest r : List HostAction} (h : Consumed (.wait :: rest) r) : r = .wait :: rest := by
  obtain h | ⟨a, -, ha⟩ := h
  · exact h
  · cases ha

/-- A command in progress ends while the host waits (70_reset R185, R191). -/
theorem Running.reaches_wait {i : Instr} {y x : State} {rest : List HostAction} (h : Running i y x)
    (hs : x.script = .wait :: rest) : ∃ v, Reaches x { y with grain := .timed, script := .wait :: rest, rdata := v } := by
  induction hn : x.left using Nat.strong_induction_on generalizing x with
  | _ n ih =>
    have hallowed : ∀ z r, x.script = z :: r → allowedWhileBusy z = true := fun z r hz => by cases hs.symm.trans hz; rfl
    obtain ⟨x', hstep, hturn⟩ := h.step hallowed
    cases hturn with
    | reset r hr => cases hs.symm.trans hr
    | ended r v hr hx' =>
      cases (hs ▸ hr).of_wait
      exact ⟨v, .head hstep (hx' ▸ .refl _)⟩
    | running hr hx' hl =>
      obtain ⟨v, hv⟩ := ih _ (hn ▸ hl) hx' (hs ▸ hr).of_wait rfl
      exact ⟨v, .head hstep hv⟩

/-- WAIT on a core that is not busy is one read of STATUS (30_encoding R69). -/
theorem step_wait {s : State} {rest : List HostAction} (hb : s.busy = false) (hs : s.script = .wait :: rest) :
    step s = .next { s with script := rest, rdata := statusWord s } := by
  rw [step_act hb hs, act, waitOnce_eq, if_neg (by simp [hb])]
  rfl

/-- Settles O53: the command is accepted, runs to the end `exec` gives it while the host waits, and the WAIT then reads STATUS. -/
theorem timedCommandAgrees : Obligations.TimedCommandAgrees := by
  intro s t a w rest i hb hg hs ha hd h
  have hbusy : t.busy = false := (exec_idle h).1
  obtain ⟨-, ⟨hgrain, hscript, -⟩, -⟩ := exec_frame h
  replace hgrain : t.grain = .timed := hgrain.trans hg
  replace hscript : t.script = rest := hscript
  have haccept : step s = .next (accept i w { s with script := .wait :: rest }) :=
    (step_cmdWrite hb hs ha).trans (issue_timed hg hd)
  have hrun : Running i t (accept i w { s with script := .wait :: rest }) :=
    running_accept hd hg ((SameEnd.control i { s with script := rest }).exec h)
  obtain ⟨-, -, -, -, hpending, -⟩ := accept_frame i w { s with script := .wait :: rest }
  obtain ⟨v, hv⟩ := hrun.reaches_wait hpending
  have hwait : step { t with grain := .timed, script := .wait :: rest, rdata := v } = .next { t with rdata := statusWord t } := by
    rw [← hgrain, ← hscript]
    exact step_wait hbusy rfl
  exact Reaches.head haccept (hv.trans (.head hwait (.refl _)))

/- The two levels on one script -/

/-- The core `y` looked at the finer level, with `v` the value last read. -/
def State.timed (y : State) (v : Word) : State := { y with grain := .timed, rdata := v }

/-- A core at the command-atomic level that is not busy, with a well-formed script still to run (30_encoding R70). -/
structure Ready (settled : Bool) (y : State) : Prop where
  idle : y.busy = false
  grain : y.grain = .command
  wf : scriptWf settled y.script = true

/-- What R70 says of the next action of a ready core and of the actions after it. -/
theorem Ready.next {b : Bool} {y : State} (h : Ready b y) {x : HostAction} {rest : List HostAction} (hs : y.script = x :: rest) :
    (b = true ∨ allowedWhileBusy x = true) ∧ scriptWf (settledAfter b x) rest = true := by
  have hwf := h.wf
  rw [hs] at hwf
  simpa [scriptWf] using hwf

/-- The command-atomic core, whose command has ended, makes the `RD STATUS` that the host made while BUSY = 1. -/
theorem Ready.consume {y : State} {r : List HostAction} (h : Ready false y) (hr : Consumed y.script r) :
    ∃ v, Reaches y { y with script := r, rdata := v } ∧ Ready false { y with script := r, rdata := v } ∧
      r.length ≤ y.script.length := by
  obtain rfl | ⟨a, -, hs⟩ := hr
  · exact ⟨y.rdata, .refl y, h, le_rfl⟩
  · exact ⟨_, .head (step_act h.idle hs) (.refl _), ⟨h.idle, h.grain, (h.next hs).2⟩, by simp [hs]⟩

/-- The core `x` at the finer level and the core `y` at the command-atomic one come to a state they share but for the value
last read, ready for at most `n` more actions. -/
def Meet (x y : State) (n : Nat) : Prop :=
  ∃ b u v, Reaches x (u.timed v) ∧ Reaches y u ∧ Ready b u ∧ u.script.length ≤ n

/-- A command in progress comes to its end or to a RESET, while the core in which it has ended makes the same reads. -/
theorem Running.meet {i : Instr} {y x : State} (h : Running i y x) (hs : x.script = y.script) (hy : Ready false y) :
    Meet x y y.script.length := by
  induction hn : x.left using Nat.strong_induction_on generalizing x y with
  | _ n ih =>
    obtain ⟨x', hstep, hturn⟩ := h.step fun z rest hz => (hy.next (hs ▸ hz)).1.resolve_left (by decide)
    cases hturn with
    | reset r hr hx' =>
      have hyr : y.script = .reset :: r := hs.symm.trans hr
      exact ⟨true, resetEvent { y with script := r }, 0, .head hstep (hx' ▸ .refl _),
        .head (step_act hy.idle hyr) (.refl _), ⟨rfl, hy.grain, (hy.next hyr).2⟩, by simp [hyr]⟩
    | ended r v hr hx' =>
      obtain ⟨v', hy', hready, hlen⟩ := hy.consume (hs ▸ hr)
      exact ⟨false, _, v, .head hstep (hx' ▸ .refl _), hy', hready, hlen⟩
    | running hr hx' hl =>
      obtain ⟨v', hy', hready, hlen⟩ := hy.consume (hs ▸ hr)
      have hrun : Running i { y with script := x'.script, rdata := v' } x' := ⟨hx'.busy, hx'.cmd, hx'.grain, hx'.ends⟩
      obtain ⟨b, u, v, hxu, hyu, hu, hulen⟩ := ih _ (hn ▸ hl) hrun rfl hready rfl
      exact ⟨b, u, v, .head hstep hxu, hy'.trans hyu, hu, hulen.trans hlen⟩

/-- The action `x` takes the core `y`, which is not busy, to one and the same state at both levels, but for the value read. -/
def ActsAlike (x : HostAction) (y : State) : Prop :=
  ∃ y', act x y = .next y' ∧ y'.busy = false ∧ y'.grain = y.grain ∧ y'.script = y.script ∧
    ∀ v, ∃ v', act x (y.timed v) = .next (y'.timed v')

/-- A write to a location other than CMD does the same at both levels. -/
theorem hostWrite_actsAlike {y : State} (hb : y.busy = false) {a w : Word} (ha : locate a ≠ .cmd) : ActsAlike (.wr a w) y := by
  have hidle : ¬ y.busy = true := by simp [hb]
  simp only [ActsAlike, act, hostWrite, State.timed, if_neg hidle]
  cases hl : locate a with
  | cmd => exact absurd hl ha
  | _ => exact ⟨_, rfl, hb, rfl, rfl, fun v => ⟨v, if_neg hidle⟩⟩

/-- An illegal word ends at once at both levels (30_encoding R64). -/
theorem illegal_actsAlike {y : State} (hb : y.busy = false) {a w : Word} {e : DecodeError} (ha : locate a = .cmd)
    (hd : decode w = .error e) : ActsAlike (.wr a w) y := by
  have hact (s : State) (hs : s.busy = false) : act (.wr a w) s = .next (fail .invalidCommand s) := by
    simp [act, hostWrite, hs, ha, issue, hd]
  exact ⟨_, hact y hb, rfl, rfl, rfl, fun v => ⟨v, hact (y.timed v) hb⟩⟩

/-- Every action but a legal command does the same at both levels. -/
theorem actsAlike_of_no_command {x : HostAction} {y : State} (hb : y.busy = false)
    (hx : ∀ a w i, x = .wr a w → locate a = .cmd → decode w ≠ .ok i) : ActsAlike x y := by
  cases x with
  | reset => exact ⟨_, rfl, rfl, rfl, rfl, fun _ => ⟨0, rfl⟩⟩
  | rd a => exact ⟨_, rfl, hb, rfl, rfl, fun v => ⟨hostRead (y.timed v) a, rfl⟩⟩
  | wait =>
    have hact (s : State) (hs : s.busy = false) : act .wait s = .next { s with rdata := statusWord s } := by
      simp [act, waitOnce_eq, hs]
    exact ⟨_, hact y hb, hb, rfl, rfl, fun v => ⟨_, hact (y.timed v) hb⟩⟩
  | wr a w =>
    by_cases ha : locate a = .cmd
    · cases hd : decode w with
      | ok i => exact absurd hd (hx a w i rfl ha)
      | error e => exact illegal_actsAlike hb ha hd
    · exact hostWrite_actsAlike hb ha

/-- A legal command in a ready core: one step at the command-atomic level, an acceptance and a busy window at the finer one. -/
theorem Ready.meet_command {b : Bool} {y : State} (h : Ready b y) {a w : Word} {rest : List HostAction} {i : Instr}
    (hs : y.script = .wr a w :: rest) (ha : locate a = .cmd) (hd : decode w = .ok i) (v : Word) :
    Meet (y.timed v) y rest.length := by
  obtain ⟨y', hy'⟩ := exec_next i { y with script := rest }
  obtain ⟨-, ⟨hgrain, hscript, -⟩, -⟩ := exec_frame hy'
  replace hscript : y'.script = rest := hscript
  have hstep : Machine.step y = .next y' :=
    (step_cmdWrite h.idle hs ha).trans ((issue_command (s := { y with script := rest }) h.grain hd).trans hy')
  have haccept : Machine.step (y.timed v) = .next (accept i w { y.timed v with script := rest }) :=
    (step_cmdWrite (s := y.timed v) h.idle hs ha).trans (issue_timed rfl hd)
  have hrun : Running i y' (accept i w { y.timed v with script := rest }) :=
    running_accept hd rfl ((SameEnd.control i { y with script := rest }).exec hy')
  obtain ⟨-, -, -, -, hpending, -⟩ := accept_frame i w { y.timed v with script := rest }
  have hwf : scriptWf false y'.script = true := by
    rw [hscript]
    simpa [settledAfter, ha] using (h.next hs).2
  obtain ⟨b', u, v', hxu, hyu, hu, hlen⟩ :=
    hrun.meet (hpending.trans hscript.symm) ⟨(exec_idle hy').1, hgrain.trans h.grain, hwf⟩
  exact ⟨b', u, v', .head haccept hxu, .head hstep hyu, hu, hscript ▸ hlen⟩

/-- Any other action of a ready core: one step at each level. -/
theorem Ready.meet_action {b : Bool} {y : State} (h : Ready b y) {x : HostAction} {rest : List HostAction}
    (hs : y.script = x :: rest) (hx : ∀ a w i, x = .wr a w → locate a = .cmd → decode w ≠ .ok i) (v : Word) :
    Meet (y.timed v) y rest.length := by
  obtain ⟨y', hact, hidle, hgrain, hscript, halike⟩ := actsAlike_of_no_command (y := { y with script := rest }) h.idle hx
  obtain ⟨v', hact'⟩ := halike v
  replace hscript : y'.script = rest := hscript
  have hwf : scriptWf (settledAfter b x) y'.script = true := by
    rw [hscript]
    exact (h.next hs).2
  exact ⟨_, y', v', .head ((step_act (s := y.timed v) h.idle hs).trans hact') (.refl _),
    .head ((step_act h.idle hs).trans hact) (.refl _), ⟨hidle, hgrain.trans h.grain, hwf⟩, by rw [hscript]⟩

/-- A ready core runs its script to the end at both levels, to one and the same state but for the value last read. -/
theorem Ready.levels_agree {b : Bool} {y : State} (h : Ready b y) (v : Word) :
    ∃ u v', Reaches (y.timed v) (u.timed v') ∧ Reaches y u ∧ u.busy = false ∧ u.script = [] := by
  induction hn : y.script.length using Nat.strong_induction_on generalizing b y v with
  | _ n ih =>
    cases hs : y.script with
    | nil => exact ⟨y, v, .refl _, .refl y, h.idle, hs⟩
    | cons x rest =>
      have hshort : rest.length < n := by rw [← hn, hs, List.length_cons]; omega
      have hmeet : Meet (y.timed v) y rest.length := by
        by_cases hx : ∀ a w i, x = .wr a w → locate a = .cmd → decode w ≠ .ok i
        · exact h.meet_action hs hx v
        · push Not at hx
          obtain ⟨a, w, i, rfl, ha, hd⟩ := hx
          exact h.meet_command hs ha hd v
      obtain ⟨b', u, v', hxu, hyu, hu, hlen⟩ := hmeet
      obtain ⟨t, v'', hut, hut', ht⟩ := ih _ (hlen.trans_lt hshort) hu v' rfl
      exact ⟨t, v'', hxu.trans hut, hyu.trans hut', ht⟩

/-- Settles O54: a core that is not busy is ready to run a well-formed script. -/
theorem levelsAgreeOnWellFormedScripts : Obligations.LevelsAgreeOnWellFormedScripts := by
  intro s hb hwf
  have hready : Ready false { s with grain := .command } := ⟨hb, rfl, hwf⟩
  obtain ⟨u, v, ⟨n, hn⟩, ⟨m, hm⟩, hu, hscript⟩ := hready.levels_agree s.rdata
  exact ⟨n, m, u.timed v, u, hn, hm, hscript, hu, hscript, hu, rfl⟩

end Sys2Proof.Machine
end
